-- ==== Sys2Proof/Word.lean ====
section
/-! DEFINITION. The words of the narrower: the widths that 00_scope.md R6 and 30_encoding.md R38 fix. -/

namespace Sys2Proof

/-- A binary32 pattern, an operand `req_a` or a response `rsp_data` (R12, R42). -/
abbrev Word32 := BitVec 32

/-- A binary16 pattern (R43). -/
abbrev Word16 := BitVec 16

/-- The op field `req_op` (R12, R39). -/
abbrev OpField := BitVec 2

/-- A command word `cmd[33:0] = (req_op[1:0], req_a[31:0])` (R38). -/
abbrev Command := BitVec 34

end Sys2Proof
end

