-- ==== Sys2Proof/Machine/Flags.lean ====
section
/-! DEFINITION. The block has no status flags (10_state.md R19). What its datapath computes about discarded bits are the round bit
and sticky, and the increment of round-to-nearest-even that they decide (40_narrow.md R60, R61, R62). -/

namespace Sys2Proof.Machine

/-- The round bit: the most significant discarded bit, bit `n − 1` when `n ≥ 1` low bits of `v` are discarded (R61). -/
def roundBit (v n : Nat) : Nat := (v >>> (n - 1)) &&& 1

/-- Sticky: 1 when any bit below the round bit is set, when `n ≥ 1` low bits of `v` are discarded (R61). -/
def sticky (v n : Nat) : Nat := if v &&& ((1 <<< (n - 1)) - 1) ≠ 0 then 1 else 0

/-- The round-to-nearest-even increment: `t + (r & (st | (t & 1)))` (R61). -/
def roundEven (t r st : Nat) : Nat := t + (r &&& (st ||| (t &&& 1)))

end Sys2Proof.Machine
end

