-- ==== Sys2Proof/Machine/Operands.lean ====
section
/-! DEFINITION. The operand formats (30_encoding.md R42, R43): the fields of a binary32 and of a binary16 pattern, as unsigned
numbers (00_scope.md R7, R8), and the packing of a sign and a magnitude back into a pattern. -/

namespace Sys2Proof.Machine

/-- `v[hi:lo]`, "read as an unsigned integer of width hi−lo+1" (R7). -/
def bitField {n : Nat} (v : BitVec n) (hi lo : Nat) : Nat := (v.toNat >>> lo) % 2 ^ (hi + 1 - lo)

/-- `s32 = a[31]` (R42). -/
def sign32 (a : Word32) : Nat := bitField a 31 31

/-- `e32 = a[30:23]`, the biased exponent (R42). -/
def exp32 (a : Word32) : Nat := bitField a 30 23

/-- `m32 = a[22:0]`, the mantissa (R42). -/
def man32 (a : Word32) : Nat := bitField a 22 0

/-- `s16 = h[15]` (R43). -/
def sign16 (h : Word16) : Nat := bitField h 15 15

/-- `e16f = h[14:10]`, the biased exponent (R43). -/
def exp16 (h : Word16) : Nat := bitField h 14 10

/-- `m16 = h[9:0]`, the mantissa (R43). -/
def man16 (h : Word16) : Nat := bitField h 9 0

/-- The binary16 pattern `sg | magnitude` with `sg = s << 15` (R52). -/
def pack16 (s magnitude : Nat) : Word16 := BitVec.ofNat 16 (s <<< 15 ||| magnitude)

/-- The binary32 pattern `sg | magnitude` with `sg = s << 31` (R73). -/
def pack32 (s magnitude : Nat) : Word32 := BitVec.ofNat 32 (s <<< 31 ||| magnitude)

/-- The rebiased exponent `e16 = e32 − 127 + 15 = e32 − 112`, a signed number (R57). -/
def rebias (e32 : Nat) : Int := (e32 : Int) - 112

/-- The bit index of the most significant 1 among bits `i..0` of `m`, and 0 if there is none (R75). -/
def topBit (m : Nat) : Nat → Nat
  | 0 => 0
  | i + 1 => if m.testBit (i + 1) then i + 1 else topBit m i

end Sys2Proof.Machine
end

