-- ==== Sys2Proof/Syntax.lean ====
section
/-! DEFINITION. The commands of the narrower, one constructor for each row of spec/opcode_table.json (30_encoding.md R39), and the
values on the input ports during one clock cycle (10_state.md R12). -/

namespace Sys2Proof

/-- The four commands. Every operand value is legal (R51, R72, R81, R89), so an operand is a plain bit pattern. -/
inductive Instr where
  /-- `NARROW a`, op 0b00: binary32 `a` to binary16 (R51). -/
  | narrow (a : Word32)
  /-- `WIDEN h`, op 0b01: binary16 `h = a[15:0]` to binary32; `aHi` is `a[31:16]`, which the block ignores (R40, R72). -/
  | widen (aHi h : Word16)
  /-- `QHALF a`, op 0b10: binary32 `a` to binary16 and back (R81). -/
  | qhalf (a : Word32)
  /-- `RSVD`, op 0b11, the reserved op, which answers with an error; it ignores all of `a` (R47, R89). -/
  | rsvd (a : Word32)
  deriving DecidableEq, Repr

/-- The mnemonic of an instruction, as spec/opcode_table.json and R49 write it. -/
def Instr.mnemonic : Instr → String
  | .narrow _ => "NARROW"
  | .widen _ _ => "WIDEN"
  | .qhalf _ => "QHALF"
  | .rsvd _ => "RSVD"

/-- The values on the input ports during one clock cycle (R12; `clk` is the step itself). `none` is a port that does not hold one
well-defined value at the edge that ends the cycle: undriven (R13) or not held steady (R109, I7). -/
structure Inputs where
  /-- `rst`, synchronous reset, active high. -/
  rst : Option Bool
  /-- `req_valid`: a request is presented this cycle. -/
  reqValid : Option Bool
  /-- `req_op[1:0]`. -/
  reqOp : Option OpField
  /-- `req_a[31:0]`. -/
  reqA : Option Word32
  deriving DecidableEq, Repr

end Sys2Proof
end

