-- ==== Sys2Proof/WellFormed.lean ====
section
/-! DEFINITION. The checks on what is presented to the block: an instruction, the number that is to be a command word, and the input
values of one cycle. -/

namespace Sys2Proof

/-- Every instruction is well formed: "Every one of the 2^32 values is a legal operand" (R51; R72, R81), and the reserved op is
defined for any operand (R47, R89). The check names every constructor, so that a new one must be decided here. -/
def Instr.wellFormed : Instr → Bool
  | .narrow _ => true
  | .widen _ _ => true
  | .qhalf _ => true
  | .rsvd _ => true

/-- A number is a command word when it has at most 34 bits: "Every command is exactly 34 bits" (R48, R38). -/
def commandFits (w : Nat) : Bool := decide (w < 2 ^ 34)

/-- The host meets its obligation of R109 at the edge that ends this cycle: each port the block samples there holds one
well-defined value. `rst` is always sampled, `req_valid` when `rst` is 0 (R15), the other two only for an accepted request (R13). -/
def Inputs.steady (c : Inputs) : Bool :=
  match c.rst, c.reqValid with
  | some true, _ => true
  | some false, some false => true
  | some false, some true => c.reqOp.isSome && c.reqA.isSome
  | _, _ => false

end Sys2Proof
end

