-- ==== Sys2Proof/Decode.lean ====
section
/-! DEFINITION. Decoding and encoding of the 34-bit command word (30_encoding.md R38, R39, R40, R50). -/

namespace Sys2Proof

/-- The op field `cmd[33:32]` (R38). -/
def opOf (cmd : Command) : OpField := cmd.extractLsb' 32 2

/-- The operand field `cmd[31:0]` (R38). -/
def operandOf (cmd : Command) : Word32 := cmd.extractLsb' 0 32

/-- The command word of an op and an operand, the op in the more significant bits (R38, R7). -/
def commandOf (op : OpField) (a : Word32) : Command := op ++ a

/-- Decoding "is total and unambiguous" and "needs only `cmd[33:32]`" (R50); the operand is split as R40 says. -/
def decode (cmd : Command) : Instr :=
  let a := operandOf cmd
  if opOf cmd = 0b00#2 then .narrow a
  else if opOf cmd = 0b01#2 then .widen (a.extractLsb' 16 16) (a.extractLsb' 0 16)
  else if opOf cmd = 0b10#2 then .qhalf a
  else .rsvd a

/-- Why a number is no command word. -/
inductive DecodeReject where
  /-- It has a bit above bit 33, and every command is exactly 34 bits (R48). -/
  | widerThanCommand
  deriving DecidableEq, Repr

/-- Decoding of any number: the instruction, or the reason it is no command word. -/
def decodeNat (w : Nat) : Except DecodeReject Instr :=
  if commandFits w then .ok (decode (BitVec.ofNat 34 w)) else .error .widerThanCommand

/-- The number of a table row's bits as the command port sees it: the low `nbits` bits, all bits above them 0. -/
def tableCommand (nbits w : Nat) : Nat := w % 2 ^ nbits

/-- The instruction the decoder reads from a row of the opcode table; the table's one word is the command word itself (R38), and
the block gives it no byte order (R27; log 7). -/
def decodeTableWord (nbits w : Nat) : Option Instr :=
  match decodeNat (tableCommand nbits w) with
  | .ok i => some i
  | .error _ => none

/-- The command word of an instruction (R38, R39, R40). -/
def encode : Instr → Command
  | .narrow a => commandOf 0b00#2 a
  | .widen aHi h => commandOf 0b01#2 (aHi ++ h)
  | .qhalf a => commandOf 0b10#2 a
  | .rsvd a => commandOf 0b11#2 a

/-- The match value of an instruction's row (R50; spec/opcode_table.json). -/
def rowMatch : Instr → Command
  | .narrow _ => 0x000000000#34
  | .widen _ _ => 0x100000000#34
  | .qhalf _ => 0x200000000#34
  | .rsvd _ => 0x300000000#34

/-- The mask every row of the opcode table has (R50; spec/opcode_table.json). -/
def rowMask : Command := 0x300000000#34

end Sys2Proof
end

