-- ==== Sys2Proof/Config.lean ====
section
/-! DEFINITION. What a build of the narrower fixes, and the values the spec leaves free. None of the constants has a body, so a
statement about them holds for every value they may have. -/

namespace Sys2Proof

/-- The values of the build parameter `NAN_FIX` (00_scope.md R5, 40_narrow.md R56); the spec's default stands first. -/
inductive NanFix where
  /-- `SET_LSB_IF_ZERO`, the default: change the fragment only if it is zero. -/
  | setLsbIfZero
  /-- `OR_LSB`: bit 0 is always 1. -/
  | orLsb
  /-- `OR_QUIET`: bit 9 is always 1. -/
  | orQuiet
  deriving DecidableEq, Repr, Inhabited

/-- `NAN_FIX` of this build: "fixed when the block is built, and no running command can read or write it" (R5, D24; log 5). -/
opaque Config.nanFix : NanFix

/-- The `n`-th draw of `rsp_valid` before the first reset edge (10_state.md R24, I6; log 2). -/
opaque Config.powerOnValid : Nat → Bool

/-- The `n`-th draw of `rsp_data` before the first reset edge (10_state.md R24, I6; log 2). -/
opaque Config.powerOnData : Nat → Word32

/-- The `n`-th draw of `rsp_err` before the first reset edge (10_state.md R24, I6; log 2). -/
opaque Config.powerOnErr : Nat → Bool

end Sys2Proof
end

