-- ==== Sys2Proof/Machine/State.lean ====
section
/-! DEFINITION. The state of the narrower (10_state.md R14), the reasons a step can stop, and the state after reset (R23). -/

namespace Sys2Proof.Machine

/-- The block's three registers (R14), and three fields of the model's own: the input values of the cycles still to come (log 1),
and what the power-on draws of R24 need (log 2, log 3). -/
structure State where
  /-- `s.rsp_valid`: "1 exactly when the previous cycle accepted a request" (R14). -/
  rspValid : Bool
  /-- `s.rsp_data`: "the data of the most recent response" (R14). -/
  rspData : Word32
  /-- `s.rsp_err`: "the error bit of the most recent response" (R14). -/
  rspErr : Bool
  /-- The model's own: what the host drives in each cycle still to come, first the cycle the next rising edge ends (R111). -/
  inputs : List Inputs
  /-- The model's own: a reset edge has happened since power-on, so the registers are specified (R24, R105). -/
  afterReset : Bool
  /-- The model's own: how many power-on draws have been made (R24); it only selects the next free value. -/
  draws : Nat
  deriving DecidableEq, Repr

/-- The faults of the machine: none. The block has no trap (R94), and its one error is a response (R89). -/
inductive Fault
  deriving DecidableEq, Repr

/-- Why the model gives a step no meaning. -/
inductive Refusal where
  /-- An instruction that has no meaning in the model. Raised by nothing: all four have theirs. Safe. -/
  | notModelled (mnemonic : String)
  /-- Raised by a step at whose edge a port the block samples holds no one well-defined value: the host breaks R109, and "a host
  that breaks it is outside the spec" (I7 says `refuse`; log 4). Safe: the model stops where the hardware goes on somehow. -/
  | unsteadyInput
  deriving DecidableEq, Repr

/-- The machine right after reset: the values of R23, and nothing presented yet by the host (log 1). -/
def State.reset : State :=
  { rspValid := false
    rspData := 0x00000000#32
    rspErr := false
    inputs := []
    afterReset := true
    draws := 0 }

/-- The machine at power-on, before any clock edge, with `cs` to come: each register is a draw under no law (R24, I6). -/
def State.powerOn (cs : List Inputs) : State :=
  { rspValid := Config.powerOnValid 0
    rspData := Config.powerOnData 0
    rspErr := Config.powerOnErr 0
    inputs := cs
    afterReset := false
    draws := 1 }

/-- The values on the three output ports (R12). -/
structure Outputs where
  /-- `rsp_valid`. -/
  rspValid : Bool
  /-- `rsp_data[31:0]`. -/
  rspData : Word32
  /-- `rsp_err`. -/
  rspErr : Bool
  deriving DecidableEq, Repr

/-- "Each output port drives its register directly, with no combinational path from the inputs" (R14); reading them changes
nothing (R29). -/
def State.outputs (s : State) : Outputs :=
  { rspValid := s.rspValid, rspData := s.rspData, rspErr := s.rspErr }

end Sys2Proof.Machine
end

