-- ==== Sys2Proof/Machine/Ops.lean ====
section
/-! DEFINITION. What a rising edge does to the registers (10_state.md R15): sampling the ports, the reset edge, the idle edge and the
writing of a response. The block takes no exception and returns from none (60_exceptions.md R94, R95): its one error is a response
like any other (R89, R93). -/

namespace Sys2Proof.Machine

/-- What the block does at a rising edge (the three branches of R15), or that the host broke R109 there. -/
inductive EdgeAction where
  | reset
  | accept (cmd : Command)
  | idle
  | unsteady
  deriving DecidableEq, Repr

/-- The ports at a rising edge: `rst` is tested first (R15, R91), then `req_valid`; `req_op` and `req_a` are read only for an
accepted request (R13), whole (R29). A port that is read and holds no one value breaks R109 (log 4). -/
def sample (c : Inputs) : EdgeAction :=
  match c.rst with
  | none => .unsteady
  | some true => .reset
  | some false =>
    match c.reqValid with
    | none => .unsteady
    | some false => .idle
    | some true =>
      match c.reqOp, c.reqA with
      | some op, some a => .accept (commandOf op a)
      | _, _ => .unsteady

/-- The input values that present a command: `rst=0, req_valid=1` and the two fields of the word (R49). -/
def requestInputs (cmd : Command) : Inputs :=
  { rst := some false, reqValid := some true, reqOp := some (opOf cmd), reqA := some (operandOf cmd) }

/-- Before the first reset edge every register is a fresh draw (R24: "an unconstrained value (a draw) until the first reset edge";
log 2, log 3). -/
def State.drawRegisters (s : State) : State :=
  { s with
    rspValid := Config.powerOnValid s.draws
    rspData := Config.powerOnData s.draws
    rspErr := Config.powerOnErr s.draws
    draws := s.draws + 1 }

/-- Writing a response: `s.rsp_valid <- 1; s.rsp_data <- d; s.rsp_err <- e` (R15), all at one edge (R29). -/
def State.respond (s : State) (d : Word32) (e : Bool) : State :=
  if s.afterReset then { s with rspValid := true, rspData := d, rspErr := e } else s.drawRegisters

/-- An edge with no request: `s.rsp_valid <- 0`, and `rsp_data` and `rsp_err` hold (R15, R16). -/
def State.idleEdge (s : State) : State :=
  if s.afterReset then { s with rspValid := false } else s.drawRegisters

/-- A reset edge: the three registers take the values of R23 (R103), whatever they held. -/
def State.resetEdge (s : State) : State :=
  { s with rspValid := false, rspData := 0x00000000#32, rspErr := false, afterReset := true }

end Sys2Proof.Machine
end

