-- ==== Sys2Proof/Machine/Narrow.lean ====
section
/-! DEFINITION. NARROW, binary32 to binary16 (40_narrow.md R51 to R71). -/

namespace Sys2Proof.Machine

/-- `fix_NAN_FIX(f)`: how the fragment of a narrowed NaN is kept non-zero (R56). -/
def fixNan : NanFix → Nat → Nat
  | .setLsbIfZero, f => if f ≠ 0 then f else 0x001
  | .orLsb, f => f ||| 0x001
  | .orQuiet, f => f ||| 0x200

/-- The magnitude of an infinity or a NaN, `e32 == 255` (R54, R55). -/
def narrowSpecial (fix : NanFix) (m32 : Nat) : Nat :=
  if m32 = 0 then 0x7C00 else 0x7C00 ||| fixNan fix (m32 >>> 13)

/-- The magnitude of a subnormal result, `−10 <= e16 <= 0` (R60): the significand with its implicit bit, shifted right by
`sh = 14 − e16` and rounded. -/
def narrowSubnormal (e16 : Int) (m32 : Nat) : Nat :=
  let M := m32 ||| 0x800000
  let sh := (14 - e16).toNat
  roundEven (M >>> sh) (roundBit M sh) (sticky M sh)

/-- The magnitude of a normal result, `1 <= e16 <= 30` (R62): 13 bits are discarded, and the increment goes across the packed
field, so that a carry reaches the exponent (R63). -/
def narrowNormal (e16 : Int) (m32 : Nat) : Nat :=
  roundEven (e16.toNat <<< 10 ||| m32 >>> 13) (roundBit m32 13) (sticky m32 13)

/-- The 15-bit magnitude of `narrow16`, its paths tested in the order of R53 and R68. -/
def narrowMagnitude (fix : NanFix) (e32 m32 : Nat) : Nat :=
  if e32 = 255 then narrowSpecial fix m32
  else if rebias e32 ≥ 31 then 0x7C00
  else if rebias e32 < -10 then 0
  else if rebias e32 ≤ 0 then narrowSubnormal (rebias e32) m32
  else narrowNormal (rebias e32) m32

/-- `narrow16` (R68), the sign of the operand on every result (R65). -/
def narrow16 (fix : NanFix) (a : Word32) : Word16 :=
  pack16 (sign32 a) (narrowMagnitude fix (exp32 a) (man32 a))

/-- `NARROW a`: `rsp_data <- zext_32(narrow16(a)); rsp_err <- 0` (R51, R67). -/
def execNarrow (a : Word32) (s : State) : Host.Outcome State Fault Refusal :=
  .next (s.respond ((narrow16 Config.nanFix a).setWidth 32) false)

end Sys2Proof.Machine
end

