-- ==== Sys2Proof/Machine/Widen.lean ====
section
/-! DEFINITION. WIDEN, binary16 to binary32 (41_widen.md R72 to R80). -/

namespace Sys2Proof.Machine

/-- The magnitude of the widened subnormal `m ≠ 0` (R75): `p` is the index of its most significant 1, the exponent is `103 + p`, and
the implicit bit is removed from the mantissa. -/
def widenSubnormal (m : Nat) : Nat :=
  let p := topBit m 9
  (103 + p) <<< 23 ||| ((m <<< (23 - p)) &&& 0x7FFFFF)

/-- The 31-bit magnitude of `widen32` (R79): infinity and NaN (R76), zero (R74), subnormal (R75), normal (R77). -/
def widenMagnitude (e m : Nat) : Nat :=
  if e = 31 then 0x7F800000 ||| m <<< 13
  else if e = 0 then (if m = 0 then 0 else widenSubnormal m)
  else (e + 112) <<< 23 ||| m <<< 13

/-- `widen32` (R79); it does not depend on `NAN_FIX`. -/
def widen32 (h : Word16) : Word32 := pack32 (sign16 h) (widenMagnitude (exp16 h) (man16 h))

/-- `WIDEN h`: `rsp_data <- widen32(a[15:0]); rsp_err <- 0`; `a[31:16]` affects nothing (R72, R80). -/
def execWiden (_aHi h : Word16) (s : State) : Host.Outcome State Fault Refusal :=
  .next (s.respond (widen32 h) false)

end Sys2Proof.Machine
end

