-- ==== Sys2Proof/Machine/Quantize.lean ====
section
/-! DEFINITION. QHALF, binary32 to binary16 and back (42_quantize.md R81 to R88). -/

namespace Sys2Proof.Machine

/-- `qhalf(a) = widen32(narrow16(a))` (R81). -/
def qhalf (fix : NanFix) (a : Word32) : Word32 := widen32 (narrow16 fix a)

/-- `QHALF a`: `rsp_data <- qhalf(a); rsp_err <- 0` (R81, R88). -/
def execQhalf (a : Word32) (s : State) : Host.Outcome State Fault Refusal :=
  .next (s.respond (qhalf Config.nanFix a) false)

end Sys2Proof.Machine
end

