-- ==== Sys2Proof/Machine/Reserved.lean ====
section
/-! DEFINITION. The reserved op (60_exceptions.md R89): the block's one error, reported in the response. -/

namespace Sys2Proof.Machine

/-- `RSVD`: "a response with `rsp_err = 1` and `rsp_data = 0x00000000`, whatever the operand holds" (R89). -/
def execRsvd (_a : Word32) (s : State) : Host.Outcome State Fault Refusal :=
  .next (s.respond 0x00000000#32 true)

end Sys2Proof.Machine
end

