-- ==== Sys2Proof/Machine/Dispatch.lean ====
section
/-! DEFINITION. The execution dispatch (30_encoding.md R46): one arm per command. -/

namespace Sys2Proof.Machine

def exec (i : Instr) (s : State) : Host.Outcome State Fault Refusal :=
  match i with
  | .narrow a => Sys2Proof.Machine.execNarrow a s
  | .widen aHi h => Sys2Proof.Machine.execWiden aHi h s
  | .qhalf a => Sys2Proof.Machine.execQhalf a s
  | .rsvd a => Sys2Proof.Machine.execRsvd a s

end Sys2Proof.Machine
end

