-- ==== Sys2Proof/Machine/Program.lean ====
section
/-! DEFINITION. The program notation of the spec (30_encoding.md R49): a line is one clock cycle, and stands for the values on the
input ports during it. -/

namespace Sys2Proof.Machine

/-- A line of a program (R49). `WIDEN 0xHHHH` with 4 digits is `request (.widen 0 h)`. -/
inductive Line where
  /-- `NARROW …`, `WIDEN …`, `QHALF …`, `RSVD …`. -/
  | request (i : Instr)
  /-- `IDLE`. -/
  | idle
  /-- `RESET`. -/
  | reset
  /-- `RESET (with X presented)`; the request is dropped (R104). -/
  | resetWith (i : Instr)
  deriving DecidableEq, Repr

/-- What a line means for its cycle (R49); a don't-care input is left undriven, which R13 allows. -/
def Line.inputs : Line → Inputs
  | .request i => requestInputs (encode i)
  | .idle => { rst := some false, reqValid := some false, reqOp := none, reqA := none }
  | .reset => { rst := some true, reqValid := none, reqOp := none, reqA := none }
  | .resetWith i => { requestInputs (encode i) with rst := some true }

/-- The state with a program to run (R111): the host will present its lines, one a cycle. -/
def State.withProgram (s : State) (p : List Line) : State := { s with inputs := p.map Line.inputs }

end Sys2Proof.Machine
end

