-- ==== Sys2Proof/Machine/Step.lean ====
section
/-! DEFINITION. One step, which is one rising edge of `clk` (10_state.md R11, R15), and the placing of a command where the next step
takes it. -/

namespace Sys2Proof.Machine

/-- What the edge that ends a cycle does (R15): an accepted command is decoded and executed, and its response is in the registers
after this very edge (R110). -/
def edge (c : Inputs) (s : State) : Host.Outcome State Fault Refusal :=
  match sample c with
  | .reset => .next s.resetEdge
  | .accept cmd => exec (decode cmd) s
  | .idle => .next s.idleEdge
  | .unsteady => .refused .unsteadyInput

/-- One step: the edge that ends the first listed cycle (R15). After the last listed cycle the run has ended (R111): no edge occurs
and no state changes (R102; log 6). -/
def step (s : State) : Host.Outcome State Fault Refusal :=
  match s.inputs with
  | [] => .next s
  | c :: rest => edge c { s with inputs := rest }

/-- The input values that present the command of a table row; a number that is no command word cannot be driven on the 34 bits of
the ports, so its cycle drives none (log 7). -/
def tableInputs (nbits w : Nat) : Inputs :=
  if commandFits (tableCommand nbits w) then requestInputs (BitVec.ofNat 34 (tableCommand nbits w))
  else { rst := some false, reqValid := some true, reqOp := none, reqA := none }

/-- `s` with a command presented in the cycle that the next edge ends, in place of what that cycle had; the later cycles stay. -/
def State.withFetchWord (s : State) (nbits w : Nat) : State :=
  { s with inputs := tableInputs nbits w :: s.inputs.tail }

end Sys2Proof.Machine
end

