-- ==== Sys2Proof/Machine/Formats.lean ====
section
/-! DEFINITION. The classes and values of the two formats (30_encoding.md R44), which the spec's properties of the conversions speak
of (40_narrow.md R69, R70; 41_widen.md R78). No step reads them. Real values are exact rationals (00_scope.md R10). -/

namespace Sys2Proof.Machine

/-- An interchange format: exponent width `w`, mantissa width `p`, bias `b` (R2, R44). -/
structure Format where
  expBits : Nat
  manBits : Nat
  bias : Nat
  deriving DecidableEq, Repr

/-- binary32: w = 8, p = 23, b = 127 (R44). -/
def binary32 : Format := { expBits := 8, manBits := 23, bias := 127 }

/-- binary16: w = 5, p = 10, b = 15 (R44). -/
def binary16 : Format := { expBits := 5, manBits := 10, bias := 15 }

/-- The column "class" of R44. -/
inductive FloatClass where
  | zero
  | subnormal
  | normal
  | infinity
  | nan
  deriving DecidableEq, Repr

/-- The column "value" of R44: a real number, an infinity, or no value. -/
inductive FloatValue where
  | negInf
  | finite (x : ℚ)
  | posInf
  | noValue
  deriving DecidableEq, Repr

/-- The class of a pattern with exponent field `e` and mantissa `m` (R44). -/
def Format.classify (f : Format) (e m : Nat) : FloatClass :=
  if e = 0 then (if m = 0 then .zero else .subnormal)
  else if e = 2 ^ f.expBits - 1 then (if m = 0 then .infinity else .nan)
  else .normal

/-- The value of a pattern with sign `s`, exponent field `e` and mantissa `m`, by the formulas of R44. -/
def Format.value (f : Format) (s e m : Nat) : FloatValue :=
  match f.classify e m with
  | .zero => .finite ((-1) ^ s * 0)
  | .subnormal => .finite ((-1) ^ s * (2 : ℚ) ^ (1 - (f.bias : ℤ)) * ((m : ℚ) / 2 ^ f.manBits))
  | .normal => .finite ((-1) ^ s * (2 : ℚ) ^ ((e : ℤ) - (f.bias : ℤ)) * (1 + (m : ℚ) / 2 ^ f.manBits))
  | .infinity => if s = 0 then .posInf else .negInf
  | .nan => .noValue

/-- The class of a binary32 pattern. -/
def class32 (a : Word32) : FloatClass := binary32.classify (exp32 a) (man32 a)

/-- The class of a binary16 pattern. -/
def class16 (h : Word16) : FloatClass := binary16.classify (exp16 h) (man16 h)

/-- The value of a binary32 pattern. -/
def value32 (a : Word32) : FloatValue := binary32.value (sign32 a) (exp32 a) (man32 a)

/-- The value of a binary16 pattern. -/
def value16 (h : Word16) : FloatValue := binary16.value (sign16 h) (exp16 h) (man16 h)

/-- `x <= y` between values: −∞ is below and +∞ above every real number, and a NaN is comparable with nothing (R44, R70). -/
def FloatValue.le : FloatValue → FloatValue → Prop
  | .noValue, _ => False
  | _, .noValue => False
  | .negInf, _ => True
  | _, .posInf => True
  | .finite x, .finite y => x ≤ y
  | _, _ => False

/-- One unit in the last place of binary16 at the exponent of `h` (R10): 2^−24 for zeros and subnormals, 2^(e−25) for a normal. -/
def ulp16 (h : Word16) : ℚ := (2 : ℚ) ^ ((max (exp16 h) 1 : ℕ) - 25 : ℤ)

end Sys2Proof.Machine
end

