-- ==== Sys2Proof/Safety.lean ====
section
/-! DEFINITION. The terms claims are made in: a host that keeps its obligations, a response that is new, and the observation of a
run. -/

/-- The cycle accepts a request: `req_valid == 1` and `rst == 0` (R32). -/
def Sys2Proof.Inputs.accepts (c : Sys2Proof.Inputs) : Bool := c.rst == some false && c.reqValid == some true

namespace Sys2Proof.Machine

/-- The host meets R109 in every cycle it will present. -/
def State.hostSteady (s : State) : Bool := s.inputs.all Inputs.steady

/-- A safe state: the block has been reset since power-on (R105) and the host keeps R109, so no step stops and the outputs are
specified. -/
def State.safe (s : State) : Bool := s.afterReset && s.hostSteady

/-- The observation of `k` steps (R111): the outputs after each edge, up to a stop. -/
def observe : Nat → State → List Outputs
  | 0, _ => []
  | k + 1, s =>
    match step s with
    | .next t => t.outputs :: observe k t
    | .fault _ => []
    | .refused _ => []

/-- The observation of a run (R111): one entry for each listed cycle. -/
def State.observation (s : State) : List Outputs := observe s.inputs.length s

/-- What the spec's rules allow the response registers to hold once the block has been reset: an error response carries no data
(R45, R89), and data is either a binary16 pattern zero-extended (R67) or a widened one, whose low 13 bits are 0 (R75, R76, R77). -/
def State.responseLegal (s : State) : Prop :=
  s.afterReset = true →
    (s.rspErr = true → s.rspData = 0x00000000#32) ∧
    (s.rspData.extractLsb' 16 16 = 0#16 ∨ s.rspData.extractLsb' 0 13 = 0#13)

end Sys2Proof.Machine
end

