-- ==== Sys2Proof/Certificates/Slice0/Obligations.lean ====
section
/-! DEFINITION. The statements for the provers. Where a statement rests on a choice of the model, or on a passage the spec marks as
its own inference ("[derived: …]") or as general knowledge, its docstring says so. -/

open Sys2Proof Sys2Proof.Machine

/-! ### Words the statements use -/

/-- The function `exec` of 30_encoding.md R46, on the two fields of a command word. -/
def Sys2Proof.Statement.execPair (fix : NanFix) (op : OpField) (a : Word32) : Word32 × Bool :=
  if op = 0b00#2 then (0x0000#16 ++ narrow16 fix a, false)
  else if op = 0b01#2 then (widen32 (a.extractLsb' 0 16), false)
  else if op = 0b10#2 then (widen32 (narrow16 fix a), false)
  else (0x00000000#32, true)

/-- The state after the block has answered with `d` and `e`, every other field as it was. -/
def Sys2Proof.Statement.answered (s : State) (d : Word32) (e : Bool) : State :=
  { s with rspValid := true, rspData := d, rspErr := e }

/-- The response of R46 to an instruction presented as its command word. -/
def Sys2Proof.Statement.responseTo (i : Instr) : Word32 × Bool :=
  Sys2Proof.Statement.execPair Config.nanFix (opOf (encode i)) (operandOf (encode i))

/-- The cycle is an idle one: `rst == 0` and `req_valid == 0`. -/
def Sys2Proof.Statement.isIdle (c : Inputs) : Prop := c.rst = some false ∧ c.reqValid = some false

open Sys2Proof.Statement

/-! ### Reset, the step rule and the response registers -/

/-- R23, R104: an edge with `rst == 1` gives the reset values whatever the state, a request presented with it included. -/
def Obligations.ResetEdgeGivesResetValues : Prop :=
  ∀ (s : State) (c : Inputs) (rest : List Inputs), s.inputs = c :: rest → c.rst = some true →
    step s = .next { s with rspValid := false, rspData := 0x00000000#32, rspErr := false, inputs := rest, afterReset := true }

/-- The registers of `State.reset` are those any reset edge leaves (10_state.md section 5). -/
def Obligations.StateResetIsWhatAResetEdgeLeaves : Prop :=
  State.reset.outputs = { rspValid := false, rspData := 0x00000000#32, rspErr := false } ∧
  ∀ (s : State) (c : Inputs) (rest : List Inputs), s.inputs = c :: rest → c.rst = some true →
    ∃ t, step s = .next t ∧ t.outputs = State.reset.outputs

/-- R15, with `exec` as R46 gives it, once the block has been reset (before that R24 leaves the registers unspecified). -/
def Obligations.EdgeFollowsStepRule : Prop :=
  ∀ (s : State) (rst valid : Bool) (op : OpField) (a : Word32) (rest : List Inputs), s.afterReset = true →
    s.inputs = { rst := some rst, reqValid := some valid, reqOp := some op, reqA := some a } :: rest →
    step s = .next
      (if rst = true then
        { s with rspValid := false, rspData := 0x00000000#32, rspErr := false, inputs := rest }
      else if valid = true then
        { s with
          rspValid := true
          rspData := (execPair Config.nanFix op a).1
          rspErr := (execPair Config.nanFix op a).2
          inputs := rest }
      else { s with rspValid := false, inputs := rest })

/-- R13: `req_op` and `req_a`, undriven or not, have no effect on a cycle that does not accept a request. -/
def Obligations.UnacceptedRequestHasNoEffect : Prop :=
  ∀ (s : State) (c : Inputs) (op' : Option OpField) (a' : Option Word32) (rest : List Inputs),
    ¬(c.rst = some false ∧ c.reqValid = some true) →
    step { s with inputs := { c with reqOp := op', reqA := a' } :: rest } = step { s with inputs := c :: rest }

/-- R16: after a response, and after a reset with none, `rsp_data` and `rsp_err` hold through any number of idle cycles, while
`rsp_valid` is 1 in the one cycle after the request's edge only. -/
def Obligations.IdleCyclesHoldTheResponse : Prop :=
  (∀ (s : State) (i : Instr) (idles rest : List Inputs), s.afterReset = true →
    s.inputs = requestInputs (encode i) :: (idles ++ rest) → (∀ c ∈ idles, isIdle c) →
    Host.Core.run Sys2Proof.core (idles.length + 1) s = .next
      { s with
        rspValid := idles.isEmpty
        rspData := (responseTo i).1
        rspErr := (responseTo i).2
        inputs := rest }) ∧
  (∀ (s : State) (c : Inputs) (idles rest : List Inputs), s.inputs = c :: (idles ++ rest) → c.rst = some true →
    (∀ c' ∈ idles, isIdle c') →
    Host.Core.run Sys2Proof.core (idles.length + 1) s = .next
      { s with rspValid := false, rspData := 0x00000000#32, rspErr := false, inputs := rest, afterReset := true })

/-! ### What each command does -/

/-- R67: NARROW completes in every state of a block that has been reset, and writes only the three response registers. -/
def Obligations.NarrowCompletesWithZeroExtendedResult : Prop :=
  ∀ (a : Word32) (s : State), s.afterReset = true →
    exec (.narrow a) s = .next (answered s (0x0000#16 ++ narrow16 Config.nanFix a) false)

/-- R80: WIDEN completes, writes only the three response registers, and the value of `a[31:16]` affects nothing. -/
def Obligations.WidenCompletesIgnoringUpperHalf : Prop :=
  ∀ (aHi h : Word16) (s : State), s.afterReset = true →
    exec (.widen aHi h) s = .next (answered s (widen32 h) false)

/-- R88 with R81's `qhalf(a) = widen32(narrow16(a))`: QHALF completes and writes only the three response registers. -/
def Obligations.QhalfCompletesWithWidenedNarrowing : Prop :=
  ∀ (a : Word32) (s : State), s.afterReset = true →
    exec (.qhalf a) s = .next (answered s (widen32 (narrow16 Config.nanFix a)) false)

/-- R89: the reserved op completes with the error response, whatever the operand, and no other state changes. -/
def Obligations.ReservedCompletesWithError : Prop :=
  ∀ (a : Word32) (s : State), s.afterReset = true →
    exec (.rsvd a) s = .next (answered s 0x00000000#32 true)

/-- Only the reserved op reports an error, and a response's error bit is not sticky (60_exceptions.md sections 1 and 2). -/
def Obligations.ErrorBitExactlyForReserved : Prop :=
  ∀ (i : Instr) (s : State), s.afterReset = true →
    ∃ t, exec i s = .next t ∧ (t.rspErr = true ↔ ∃ a, i = .rsvd a)

/-- The model's form of R24 (log 2, log 3): until the first reset edge, every edge that is not a reset leaves all three registers at
fresh free values, for a request of any kind too; nothing else changes but the cycle taken. -/
def Obligations.OutputsAreDrawsBeforeFirstReset : Prop :=
  (∀ (s : State) (c : Inputs) (rest : List Inputs), s.afterReset = false → s.inputs = c :: rest → c.steady = true →
    c.rst = some false →
    step s = .next
      { s with
        rspValid := Config.powerOnValid s.draws
        rspData := Config.powerOnData s.draws
        rspErr := Config.powerOnErr s.draws
        inputs := rest
        draws := s.draws + 1 }) ∧
  (∀ (i : Instr) (s : State), s.afterReset = false →
    exec i s = .next
      { s with
        rspValid := Config.powerOnValid s.draws
        rspData := Config.powerOnData s.draws
        rspErr := Config.powerOnErr s.draws
        draws := s.draws + 1 })

/-! ### Commands and their words -/

/-- A cycle that accepts a command runs the decoded instruction, on the state with that cycle taken (10_state.md section 3,
30_encoding.md section 3). -/
def Obligations.StepRunsDecodedCommand : Prop :=
  ∀ (s : State) (i : Instr) (op : OpField) (a : Word32) (rest : List Inputs),
    s.inputs = { rst := some false, reqValid := some true, reqOp := some op, reqA := some a } :: rest →
    decode (commandOf op a) = i → i.wellFormed = true →
    step s = exec i { s with inputs := rest }

/-- The model's own placing of a command (log 1, log 7): the next step runs the table word that was placed. -/
def Obligations.PlacedTableWordRunsNext : Prop :=
  ∀ (s : State) (nbits w : Nat) (i : Instr), decodeTableWord nbits w = some i →
    step (s.withFetchWord nbits w) = exec i { s with inputs := s.inputs.tail }

/-- Words of 30_encoding.md R49 and 95_test_vectors.md decode to the instructions they are written for. -/
def Obligations.SampleWordsDecode : Prop :=
  decode 0x03F800000#34 = .narrow 0x3F800000#32 ∧
  decode 0x1DEAD7E00#34 = .widen 0xDEAD#16 0x7E00#16 ∧
  decode 0x240490FDB#34 = .qhalf 0x40490FDB#32 ∧
  decode 0x312345678#34 = .rsvd 0x12345678#32

/-- Decode and encode agree in both directions, over every operand and every one of the 2^34 command words (30_encoding.md
section 1). -/
def Obligations.DecodeEncodeAgree : Prop :=
  (∀ i : Instr, i.wellFormed = true → decode (encode i) = i) ∧ (∀ cmd : Command, encode (decode cmd) = cmd)

/-- R50, which the spec marks as derived: exactly one row of the opcode table matches a command word, the decoded one. -/
def Obligations.ExactlyOneRowMatches : Prop :=
  ∀ (cmd : Command) (j : Instr), cmd &&& rowMask = rowMatch j ↔ (decode cmd).mnemonic = j.mnemonic

/-- 30_encoding.md section 1 (R40): a WIDEN request whose upper operand half differs, and a reserved request whose operand differs,
give the same step; both are seen through the command word. -/
def Obligations.IgnoredOperandBitsHaveNoEffect : Prop :=
  ∀ (s : State) (c : Inputs) (a a' : Word32) (rest : List Inputs),
    (c.reqOp = some 0b01#2 ∧ a.extractLsb' 0 16 = a'.extractLsb' 0 16) ∨ c.reqOp = some 0b11#2 →
    step { s with inputs := { c with reqA := some a } :: rest } = step { s with inputs := { c with reqA := some a' } :: rest }

/-! ### NARROW -/

/-- R54, with its two examples, for every `NAN_FIX`. -/
def Obligations.NarrowOfInfinity : Prop :=
  ∀ fix : NanFix,
    (∀ a : Word32, exp32 a = 255 → man32 a = 0 → narrow16 fix a = pack16 (sign32 a) 0x7C00) ∧
    narrow16 fix 0x7F800000#32 = 0x7C00#16 ∧ narrow16 fix 0xFF800000#32 = 0xFC00#16

/-- R56: the table of `fix`, its column of payload bits kept, and the three facts that hold under every value of `NAN_FIX`: the
result is a NaN, its mantissa is not zero, its sign is the operand's. -/
def Obligations.NarrowOfNaN : Prop :=
  ∀ a : Word32, exp32 a = 255 → man32 a ≠ 0 →
    (∀ fix : NanFix,
      class16 (narrow16 fix a) = .nan ∧ man16 (narrow16 fix a) ≠ 0 ∧ sign16 (narrow16 fix a) = sign32 a) ∧
    man16 (narrow16 .setLsbIfZero a) = (if bitField a 22 13 ≠ 0 then bitField a 22 13 else 1) ∧
    man16 (narrow16 .orLsb a) = bitField a 22 13 ||| 0x001 ∧
    bitField (narrow16 .orLsb a) 9 1 = bitField a 22 14 ∧ bitField (narrow16 .orLsb a) 0 0 = 1 ∧
    man16 (narrow16 .orQuiet a) = bitField a 22 13 ||| 0x200 ∧
    bitField (narrow16 .orQuiet a) 8 0 = bitField a 21 13 ∧ bitField (narrow16 .orQuiet a) 9 9 = 1

/-- R58: `e16 >= 31`, that is `143 <= e32 <= 254` or `|x| >= 2^16`, gives signed infinity. -/
def Obligations.NarrowOverflowByExponent : Prop :=
  (∀ (fix : NanFix) (a : Word32) (x : ℚ), value32 a = .finite x →
    (rebias (exp32 a) ≥ 31 ↔ 143 ≤ exp32 a ∧ exp32 a ≤ 254) ∧
    (rebias (exp32 a) ≥ 31 ↔ |x| ≥ 2 ^ 16) ∧
    (rebias (exp32 a) ≥ 31 → narrow16 fix a = pack16 (sign32 a) 0x7C00)) ∧
  (∀ fix : NanFix, narrow16 fix 0x47800000#32 = 0x7C00#16)

/-- R59: below 2^−25 the result is a signed zero; zero is then a nearest binary16 value, so that the flush never leaves correct
rounding; and no larger threshold has that property, since the first operand above 2^−25 already rounds to 2^−24. -/
def Obligations.NarrowFlushesToSignedZero : Prop :=
  (∀ (fix : NanFix) (a : Word32) (x : ℚ), value32 a = .finite x →
    (rebias (exp32 a) < -10 ↔ exp32 a ≤ 101) ∧
    (rebias (exp32 a) < -10 ↔ |x| < 1 / 2 ^ 25) ∧
    (rebias (exp32 a) < -10 →
      narrow16 fix a = (if sign32 a = 0 then 0x0000#16 else 0x8000#16) ∧
      ∀ (h : Word16) (z : ℚ), value16 h = .finite z → |x| ≤ |z - x|)) ∧
  value32 0x33000001#32 = .finite (1 / 2 ^ 25 + 1 / 2 ^ 48) ∧ (∀ fix : NanFix, narrow16 fix 0x33000001#32 = 0x0001#16)

/-- R60: the subnormal results, with the significand `M`, the shift `sh = 14 − e16`, and why: `M × 2^(e16−14)` is `|x| × 2^24`. -/
def Obligations.NarrowSubnormalResult : Prop :=
  ∀ (fix : NanFix) (a : Word32) (x : ℚ), value32 a = .finite x →
    ((-10 ≤ rebias (exp32 a) ∧ rebias (exp32 a) ≤ 0) ↔ (102 ≤ exp32 a ∧ exp32 a ≤ 112)) ∧
    ((-10 ≤ rebias (exp32 a) ∧ rebias (exp32 a) ≤ 0) ↔ (1 / 2 ^ 25 ≤ |x| ∧ |x| < 1 / 2 ^ 14)) ∧
    (102 ≤ exp32 a → exp32 a ≤ 112 →
      ∃ M sh k r st k' : Nat,
        M = man32 a + 0x800000 ∧ sh + exp32 a = 126 ∧
        k = M / 2 ^ sh ∧ k ≤ 0x3FF ∧
        r = M / 2 ^ (sh - 1) % 2 ∧ st = (if M % 2 ^ (sh - 1) = 0 then 0 else 1) ∧
        k' = (if r = 1 ∧ (st = 1 ∨ k % 2 = 1) then k + 1 else k) ∧ k' ≤ 0x400 ∧
        narrow16 fix a = pack16 (sign32 a) k' ∧
        (M : ℚ) / 2 ^ sh = |x| * 2 ^ 24 ∧
        (k' = 0 ↔ |x| = 1 / 2 ^ 25))

/-- R62: the normal results; the round bit is `m32[12]` and sticky is `m32[11:0] != 0`, and the increment goes across the packed
field. -/
def Obligations.NarrowNormalResult : Prop :=
  ∀ (fix : NanFix) (a : Word32) (x : ℚ), value32 a = .finite x →
    ((1 ≤ rebias (exp32 a) ∧ rebias (exp32 a) ≤ 30) ↔ (113 ≤ exp32 a ∧ exp32 a ≤ 142)) ∧
    ((1 ≤ rebias (exp32 a) ∧ rebias (exp32 a) ≤ 30) ↔ (1 / 2 ^ 14 ≤ |x| ∧ |x| < 2 ^ 16)) ∧
    (113 ≤ exp32 a → exp32 a ≤ 142 →
      ∃ t t' : Nat,
        t = (exp32 a - 112) * 2 ^ 10 + bitField a 22 13 ∧ 0x0400 ≤ t ∧ t ≤ 0x7BFF ∧
        t' = (if bitField a 12 12 = 1 ∧ (bitField a 11 0 ≠ 0 ∨ t % 2 = 1) then t + 1 else t) ∧ 0x0400 ≤ t' ∧ t' ≤ 0x7C00 ∧
        narrow16 fix a = pack16 (sign32 a) t')

/-- 40_narrow.md section 5 and C1 of 90_conflicts.md (the spec marks the first two ranges as derived): the exact overflow boundary;
and, with section 4, the carry from the subnormals into the smallest normal. -/
def Obligations.NarrowRoundingCarry : Prop :=
  ∀ (fix : NanFix) (a : Word32) (x : ℚ), value32 a = .finite x →
    (|x| ≥ 65520 → narrow16 fix a = pack16 (sign32 a) 0x7C00) ∧
    (65504 ≤ |x| → |x| < 65520 → narrow16 fix a = pack16 (sign32 a) 0x7BFF) ∧
    ((2047 : ℚ) / 2 ^ 25 ≤ |x| → |x| < 1 / 2 ^ 14 → narrow16 fix a = pack16 (sign32 a) 0x0400)

/-- 40_narrow.md section 6 and 42_quantize.md section 2 (marked derived), 41_widen.md section 2: the sign bit is kept by all three conversions, for zeros,
infinities and NaNs too. -/
def Obligations.ConversionsKeepTheSign : Prop :=
  ∀ fix : NanFix,
    (∀ a : Word32, (narrow16 fix a).getLsbD 15 = a.getLsbD 31) ∧
    (∀ h : Word16, (widen32 h).getLsbD 31 = h.getLsbD 15) ∧
    (∀ a : Word32, (qhalf fix a).getLsbD 31 = a.getLsbD 31)

/-- 40_narrow.md section 7 (marked general knowledge and derived): NARROW is the correctly rounded conversion. A real value of
magnitude 65520 and above gives infinity of its sign; any other gives a nearest binary16 value, and where two are equally near, one
with an even mantissa; infinities map to infinities; the sign is the operand's. -/
def Obligations.NarrowRoundsToNearestEven : Prop :=
  ∀ (fix : NanFix) (a : Word32),
    sign16 (narrow16 fix a) = sign32 a ∧
    (value32 a = .posInf → value16 (narrow16 fix a) = .posInf) ∧
    (value32 a = .negInf → value16 (narrow16 fix a) = .negInf) ∧
    (∀ x : ℚ, value32 a = .finite x → x ≥ 65520 → value16 (narrow16 fix a) = .posInf) ∧
    (∀ x : ℚ, value32 a = .finite x → x ≤ -65520 → value16 (narrow16 fix a) = .negInf) ∧
    (∀ x : ℚ, value32 a = .finite x → |x| < 65520 →
      ∃ y : ℚ, value16 (narrow16 fix a) = .finite y ∧
        ∀ (h : Word16) (z : ℚ), value16 h = .finite z →
          |y - x| ≤ |z - x| ∧ (z ≠ y → |y - x| = |z - x| → man16 (narrow16 fix a) % 2 = 0))

/-- 40_narrow.md section 7 (marked derived): NARROW is monotonic on operands that are no NaN, infinities included. -/
def Obligations.NarrowIsMonotonic : Prop :=
  ∀ (fix : NanFix) (a b : Word32), (value32 a).le (value32 b) → (value16 (narrow16 fix a)).le (value16 (narrow16 fix b))

/-- 40_narrow.md section 7 (marked derived): a finite result is within half a unit in the last place, at the exponent of the
result. -/
def Obligations.NarrowErrorAtMostHalfUlp : Prop :=
  ∀ (fix : NanFix) (a : Word32) (x y : ℚ), value32 a = .finite x → value16 (narrow16 fix a) = .finite y →
    |y - x| ≤ ulp16 (narrow16 fix a) / 2

/-- The boundary table of 40_narrow.md section 7 (marked derived), under every `NAN_FIX`. -/
def Obligations.NarrowBoundaryPoints : Prop :=
  ∀ fix : NanFix,
    narrow16 fix 0x477FE000#32 = 0x7BFF#16 ∧ narrow16 fix 0x477FEFFF#32 = 0x7BFF#16 ∧
    narrow16 fix 0x477FF000#32 = 0x7C00#16 ∧ narrow16 fix 0x47800000#32 = 0x7C00#16 ∧
    narrow16 fix 0x38800000#32 = 0x0400#16 ∧ narrow16 fix 0x387FC000#32 = 0x03FF#16 ∧
    narrow16 fix 0x33800000#32 = 0x0001#16 ∧ narrow16 fix 0x33C00000#32 = 0x0002#16 ∧
    narrow16 fix 0x33000001#32 = 0x0001#16 ∧ narrow16 fix 0x33000000#32 = 0x0000#16 ∧
    narrow16 fix 0x32FFFFFF#32 = 0x0000#16

/-! ### WIDEN -/

/-- R74, R76, R77, read off the fields of the result, with the examples of the three rules. -/
def Obligations.WidenZeroSpecialNormalFields : Prop :=
  (∀ h : Word16, exp16 h = 0 → man16 h = 0 →
    sign32 (widen32 h) = sign16 h ∧ exp32 (widen32 h) = 0 ∧ man32 (widen32 h) = 0) ∧
  (∀ h : Word16, exp16 h = 31 →
    sign32 (widen32 h) = sign16 h ∧ exp32 (widen32 h) = 255 ∧ man32 (widen32 h) = man16 h * 2 ^ 13) ∧
  (∀ h : Word16, 1 ≤ exp16 h → exp16 h ≤ 30 →
    sign32 (widen32 h) = sign16 h ∧ exp32 (widen32 h) = exp16 h + 112 ∧ man32 (widen32 h) = man16 h * 2 ^ 13) ∧
  widen32 0x0000#16 = 0x00000000#32 ∧ widen32 0x8000#16 = 0x80000000#32 ∧
  widen32 0x7C00#16 = 0x7F800000#32 ∧ widen32 0xFC00#16 = 0xFF800000#32 ∧
  widen32 0x7E00#16 = 0x7FC00000#32 ∧ widen32 0x7C01#16 = 0x7F802000#32 ∧
  widen32 0x3C00#16 = 0x3F800000#32 ∧ widen32 0x7BFF#16 = 0x477FE000#32 ∧ widen32 0x0400#16 = 0x38800000#32

/-- 41_widen.md section 2 (R75, whose account of the loop is marked derived): a subnormal is renormalised at its leading 1, and the
value kept is exactly `m × 2^−24`. -/
def Obligations.WidenRenormalisesSubnormals : Prop :=
  ∀ (h : Word16) (p : Nat), exp16 h = 0 → 2 ^ p ≤ man16 h → man16 h < 2 ^ (p + 1) →
    sign32 (widen32 h) = sign16 h ∧ exp32 (widen32 h) = 103 + p ∧
    man32 (widen32 h) = (man16 h - 2 ^ p) * 2 ^ (23 - p) ∧
    value32 (widen32 h) = .finite ((-1) ^ sign16 h * ((man16 h : ℚ) / 2 ^ 24))

/-- 41_widen.md section 2 (R78, marked derived and general knowledge): widening is exact on every pattern that has a value, and
injective on all 2^16 patterns. -/
def Obligations.WidenIsExactAndInjective : Prop :=
  (∀ h : Word16, value32 (widen32 h) = value16 h) ∧ (∀ h h' : Word16, widen32 h = widen32 h' → h = h')

/-! ### QHALF -/

/-- 42_quantize.md section 2 (R83, marked derived): narrowing undoes widening, for a NaN under the condition of its `NAN_FIX`, and
every pattern that `narrow16` returns meets that condition. -/
def Obligations.NarrowUndoesWiden : Prop :=
  (∀ (fix : NanFix) (h : Word16), class16 h ≠ .nan → narrow16 fix (widen32 h) = h) ∧
  (∀ h : Word16, narrow16 .setLsbIfZero (widen32 h) = h) ∧
  (∀ h : Word16, class16 h = .nan → h.getLsbD 0 = true → narrow16 .orLsb (widen32 h) = h) ∧
  (∀ h : Word16, class16 h = .nan → h.getLsbD 9 = true → narrow16 .orQuiet (widen32 h) = h) ∧
  (∀ (fix : NanFix) (a : Word32), narrow16 fix (widen32 (narrow16 fix a)) = narrow16 fix a)

/-- 42_quantize.md section 2 (R82, marked derived; OSSIS §8 states it for finite operands): quantizing twice is quantizing once, bit
for bit, for every operand and every `NAN_FIX`. -/
def Obligations.QhalfIsIdempotent : Prop :=
  ∀ (fix : NanFix) (a : Word32), qhalf fix (qhalf fix a) = qhalf fix a

/-- 42_quantize.md section 2 (R85, marked derived): a NaN stays a NaN of its sign, with the forced fragment on top and zeros below. -/
def Obligations.QhalfOfNaN : Prop :=
  (∀ (fix : NanFix) (a : Word32), class32 a = .nan →
    class32 (qhalf fix a) = .nan ∧ sign32 (qhalf fix a) = sign32 a ∧
    man32 (qhalf fix a) = fixNan fix (bitField a 22 13) * 2 ^ 13 ∧ bitField (qhalf fix a) 12 0 = 0) ∧
  qhalf .setLsbIfZero 0x7FC00000#32 = 0x7FC00000#32 ∧ qhalf .setLsbIfZero 0x7F800001#32 = 0x7F802000#32

/-- 42_quantize.md section 2 (R86, marked derived) with C1 of 90_conflicts.md: the boundary to infinity is 65520. -/
def Obligations.QhalfOverflowBoundary : Prop :=
  ∀ (fix : NanFix) (a : Word32),
    (value32 a = .posInf → qhalf fix a = 0x7F800000#32) ∧
    (value32 a = .negInf → qhalf fix a = 0xFF800000#32) ∧
    (∀ x : ℚ, value32 a = .finite x → x ≥ 65520 → qhalf fix a = 0x7F800000#32) ∧
    (∀ x : ℚ, value32 a = .finite x → x ≤ -65520 → qhalf fix a = 0xFF800000#32) ∧
    (∀ x : ℚ, value32 a = .finite x → 65504 ≤ x → x < 65520 → qhalf fix a = 0x477FE000#32) ∧
    (∀ x : ℚ, value32 a = .finite x → x ≤ -65504 → -65520 < x → qhalf fix a = 0xC77FE000#32)

/-! ### Runs -/

/-- R32: in a run of a block that has been reset, the cycle after edge `k` shows a response exactly when cycle `k` was accepted, and
that response is the one of its own command; so responses come in request order, none is lost, doubled or reordered, and a request
presented with `rst == 1` gets none. -/
def Obligations.EachAcceptedRequestAnsweredOnceInOrder : Prop :=
  ∀ s : State, s.safe = true →
    s.observation.length = s.inputs.length ∧
    ∀ (k : Nat) (c : Inputs), s.inputs[k]? = some c →
      ∃ o : Outputs, s.observation[k]? = some o ∧ o.rspValid = c.accepts ∧
        ∀ (op : OpField) (a : Word32), c.accepts = true → c.reqOp = some op → c.reqA = some a →
          (o.rspData, o.rspErr) = execPair Config.nanFix op a

/-- A response depends on nothing but its own request (10_state.md sections 3 and 4, marked derived there; 70_reset_and_hazards.md
section 2): two runs that accept the same request, in any cycles and after any history, show the same response. -/
def Obligations.ResponseDependsOnlyOnItsRequest : Prop :=
  ∀ (s s' : State) (k k' : Nat) (c : Inputs), s.safe = true → s'.safe = true → c.accepts = true →
    s.inputs[k]? = some c → s'.inputs[k']? = some c →
    s.observation[k]? = s'.observation[k']?

/-- 70_reset_and_hazards.md section 1 (R106, marked derived): a reset right after a request does not cancel its response, and ends
it. -/
def Obligations.ResetEndsAVisibleResponse : Prop :=
  ∀ (s : State) (i : Instr) (c : Inputs), s.afterReset = true → c.rst = some true →
    s.inputs = [requestInputs (encode i), c] →
    s.observation =
      [{ rspValid := true, rspData := (responseTo i).1, rspErr := (responseTo i).2 },
       { rspValid := false, rspData := 0x00000000#32, rspErr := false }]

/-- The host feeds the response of a NARROW into a WIDEN in the next cycle (70_reset_and_hazards.md section 2, marked derived), with
any upper half (41_widen.md section 3), and gets what QHALF gives, by the definition of `qhalf(a)` (42_quantize.md section 1). -/
def Obligations.NarrowThenWidenEqualsQhalf : Prop :=
  ∀ (s : State) (a : Word32) (aHi : Word16) (rest rest' : List Inputs), s.afterReset = true →
    s.inputs = requestInputs (encode (.narrow a)) :: rest →
    ∃ t u : State, step s = .next t ∧ t.rspValid = true ∧
      step { t with inputs := requestInputs (encode (.widen aHi (t.rspData.extractLsb' 0 16))) :: rest' } = .next u ∧
      u.outputs = { rspValid := true, rspData := (responseTo (.qhalf a)).1, rspErr := false }

/-- 70_reset_and_hazards.md section 1 (R105): from any state, a power-on state among them, one reset edge is enough and more change
nothing, and the first request may come in the very next cycle. -/
def Obligations.OneResetEdgeIsEnough : Prop :=
  ∀ (s : State) (c : Inputs) (more : List Inputs) (i : Instr) (rest : List Inputs), c.rst = some true →
    (∀ c' ∈ more, c'.rst = some true) → s.inputs = c :: (more ++ requestInputs (encode i) :: rest) →
    Host.Core.run Sys2Proof.core (more.length + 2) s = .next
      { s with
        rspValid := true
        rspData := (responseTo i).1
        rspErr := (responseTo i).2
        inputs := rest
        afterReset := true }

/-- 60_exceptions.md section 3 (R102) in the model's form (log 6): with no edge to come nothing changes, and when edges resume the
block carries on from the state it held. -/
def Obligations.NoEdgeNoChange : Prop :=
  ∀ (s : State) (k : Nat) (cs : List Inputs), s.inputs = [] →
    Host.Core.run Sys2Proof.core k s = .next s ∧
    ∀ t, Host.Core.run Sys2Proof.core k s = .next t → step { t with inputs := cs } = step { s with inputs := cs }

/-- 93_implementation_defined.md section 2 (I7) in the model's form (log 4): a step stops exactly when the edge samples a port that
holds no one value, and then by the refusal of that name. -/
def Obligations.StepStopsOnlyOnUnsteadyInput : Prop :=
  ∀ (s : State) (c : Inputs) (rest : List Inputs), s.inputs = c :: rest →
    (c.steady = false → step s = .refused .unsteadyInput) ∧ (c.steady = true → ∃ t, step s = .next t)

/-- The model's own rule of how a run goes on (log 1, log 2, log 3): a step takes one listed cycle, if one is left (log 6: with none
left it changes nothing), the block never loses its reset, and once reset it draws no free value any more. -/
def Obligations.StepTakesOneCycle : Prop :=
  ∀ s t : State, step s = .next t →
    t.inputs = s.inputs.tail ∧ (s.afterReset = true → t.afterReset = true ∧ t.draws = s.draws)

/-- A run of a reset block whose host keeps R109 never stops, however long it is (20_memory.md section 2, 60_exceptions.md
section 1). Past the last listed cycle that is the model's own choice: the step then changes nothing (log 6, DESIGN CHOICE, after
60_exceptions.md section 3). -/
def Obligations.SafeRunNeverStops : Prop :=
  ∀ (k : Nat) (s : State), s.safe = true → ∃ t, Host.Core.run Sys2Proof.core k s = .next t ∧ t.safe = true

/-- Every step keeps the response registers legal: no data with an error (30_encoding.md section 3), and data that is a zero-extended
binary16 pattern or a widened one (40_narrow.md section 6, 41_widen.md section 2). Before the first reset it asks nothing (log 3), and
with no cycle listed the step changes nothing (log 6): both are the model's choice. -/
def Obligations.StepKeepsResponseLegal : Prop :=
  ∀ s t : State, s.responseLegal → step s = .next t → t.responseLegal

/-- The response registers are legal after reset. -/
def Obligations.ResetResponseIsLegal : Prop := State.reset.responseLegal
end

