-- ==== Sys2Proof/Laws/Decode.lean ====
section
/-! SUPPORT. The two fields of a command word, taken apart and put together (R38). -/

namespace Sys2Proof

@[simp] theorem opOf_commandOf (op : OpField) (a : Word32) : opOf (commandOf op a) = op := by
  ext i hi
  simp only [opOf, commandOf, BitVec.getElem_extractLsb', BitVec.getLsbD_append]
  rw [if_neg (by omega), show 32 + i - 32 = i by omega, BitVec.getLsbD_eq_getElem hi]

@[simp] theorem operandOf_commandOf (op : OpField) (a : Word32) : operandOf (commandOf op a) = a := by
  ext i hi
  simp only [operandOf, commandOf, BitVec.getElem_extractLsb', BitVec.getLsbD_append]
  rw [if_pos (by omega), show 0 + i = i by omega, BitVec.getLsbD_eq_getElem hi]

@[simp] theorem commandOf_fields (cmd : Command) : commandOf (opOf cmd) (operandOf cmd) = cmd := by
  apply BitVec.eq_of_getLsbD_eq
  intro i hi
  simp only [commandOf, opOf, operandOf, BitVec.getLsbD_append, BitVec.getLsbD_extractLsb']
  split <;> rename_i h
  · simp [h]
  · rw [show 32 + (i - 32) = i by omega]; simp only [show i - 32 < 2 by omega, decide_true, Bool.true_and]

/-- The two halves of an operand, taken apart again (R40). -/
@[simp] theorem lowerHalf_append (hi lo : Word16) : BitVec.extractLsb' 0 16 (hi ++ lo : Word32) = lo := by
  apply BitVec.eq_of_getLsbD_eq
  intro i h
  rw [BitVec.getLsbD_extractLsb', BitVec.getLsbD_append]
  simp [h]

@[simp] theorem upperHalf_append (hi lo : Word16) : BitVec.extractLsb' 16 16 (hi ++ lo : Word32) = hi := by
  apply BitVec.eq_of_getLsbD_eq
  intro i h
  rw [BitVec.getLsbD_extractLsb', BitVec.getLsbD_append]
  simp [h]

/-- The two halves of an operand, put together (R40). -/
@[simp] theorem halves_append (a : Word32) : (BitVec.extractLsb' 16 16 a ++ BitVec.extractLsb' 0 16 a : Word32) = a := by
  apply BitVec.eq_of_getLsbD_eq
  intro i hi
  rw [BitVec.getLsbD_append]
  split <;> rename_i h
  · simp [h]
  · rw [BitVec.getLsbD_extractLsb']
    simp [show i - 16 < 16 by omega, show 16 + (i - 16) = i by omega]

/-- A number that decodes is a command word, and decodes as that word (R50). -/
theorem decodeTableWord_eq_some_iff (nbits w : Nat) (i : Instr) :
    decodeTableWord nbits w = some i ↔
      commandFits (tableCommand nbits w) = true ∧ decode (BitVec.ofNat 34 (tableCommand nbits w)) = i := by
  unfold decodeTableWord decodeNat
  by_cases h : commandFits (tableCommand nbits w) <;> simp [h]

end Sys2Proof
end

