-- ==== Sys2Proof/Laws/Flags.lean ====
section
/-! SUPPORT. The discarded bits and the rounding increment, in arithmetic (R61). -/

namespace Sys2Proof.Machine

theorem roundBit_eq (v n : Nat) : roundBit v n = v / 2 ^ (n - 1) % 2 := by
  rw [roundBit, Nat.and_one_is_mod, Nat.shiftRight_eq_div_pow]

theorem sticky_eq (v n : Nat) : sticky v n = if v % 2 ^ (n - 1) = 0 then 0 else 1 := by
  rw [sticky, Nat.one_shiftLeft, Nat.and_two_pow_sub_one_eq_mod]
  split <;> simp_all

theorem roundBit_lt (v n : Nat) : roundBit v n < 2 := by rw [roundBit_eq]; omega

theorem sticky_lt (v n : Nat) : sticky v n < 2 := by rw [sticky_eq]; split <;> omega

/-- Round to nearest even goes up above half an ulp, and at half an ulp when the kept part is odd (R61). -/
theorem roundEven_eq {t r st : Nat} (hr : r < 2) (hst : st < 2) :
    roundEven t r st = if r = 1 ∧ (st = 1 ∨ t % 2 = 1) then t + 1 else t := by
  have ht : t % 2 = 0 ∨ t % 2 = 1 := by omega
  rw [roundEven, Nat.and_one_is_mod]
  obtain rfl | rfl : r = 0 ∨ r = 1 := by omega
  · simp
  · obtain rfl | rfl : st = 0 ∨ st = 1 := by omega
    · rcases ht with h | h <;> simp [h]
    · rcases ht with h | h <;> simp [h]

/-- Rounding adds 0 or 1. -/
theorem roundEven_bounds {t r st : Nat} (hr : r < 2) (hst : st < 2) :
    t ≤ roundEven t r st ∧ roundEven t r st ≤ t + 1 := by
  rw [roundEven_eq hr hst]; split <;> omega

end Sys2Proof.Machine
end

