-- ==== Sys2Proof/Laws/Operands.lean ====
section
/-! SUPPORT. The fields of a pattern: their ranges, the pattern from its fields, and the fields of a packed pattern. -/

namespace Sys2Proof.Machine

theorem sign32_eq (a : Word32) : sign32 a = a.toNat / 2 ^ 31 % 2 := by
  simp [sign32, bitField, Nat.shiftRight_eq_div_pow]

theorem exp32_eq (a : Word32) : exp32 a = a.toNat / 2 ^ 23 % 2 ^ 8 := by
  simp [exp32, bitField, Nat.shiftRight_eq_div_pow]

theorem man32_eq (a : Word32) : man32 a = a.toNat % 2 ^ 23 := by
  simp [man32, bitField]

theorem sign16_eq (h : Word16) : sign16 h = h.toNat / 2 ^ 15 % 2 := by
  simp [sign16, bitField, Nat.shiftRight_eq_div_pow]

theorem exp16_eq (h : Word16) : exp16 h = h.toNat / 2 ^ 10 % 2 ^ 5 := by
  simp [exp16, bitField, Nat.shiftRight_eq_div_pow]

theorem man16_eq (h : Word16) : man16 h = h.toNat % 2 ^ 10 := by
  simp [man16, bitField]

theorem sign32_lt (a : Word32) : sign32 a < 2 := by rw [sign32_eq]; omega
theorem exp32_lt (a : Word32) : exp32 a < 256 := by rw [exp32_eq]; omega
theorem man32_lt (a : Word32) : man32 a < 2 ^ 23 := by rw [man32_eq]; omega
theorem sign16_lt (h : Word16) : sign16 h < 2 := by rw [sign16_eq]; omega
theorem exp16_lt (h : Word16) : exp16 h < 32 := by rw [exp16_eq]; omega
theorem man16_lt (h : Word16) : man16 h < 2 ^ 10 := by rw [man16_eq]; omega

/-- A binary32 pattern is its three fields (R42). -/
theorem toNat_eq_fields32 (a : Word32) : a.toNat = sign32 a * 2 ^ 31 + exp32 a * 2 ^ 23 + man32 a := by
  have := a.isLt
  rw [sign32_eq, exp32_eq, man32_eq]; omega

/-- A binary16 pattern is its three fields (R43). -/
theorem toNat_eq_fields16 (h : Word16) : h.toNat = sign16 h * 2 ^ 15 + exp16 h * 2 ^ 10 + man16 h := by
  have := h.isLt
  rw [sign16_eq, exp16_eq, man16_eq]; omega

/-- Two binary32 patterns with the same fields are the same (R42). -/
theorem eq_of_fields32 {a b : Word32} (hs : sign32 a = sign32 b) (he : exp32 a = exp32 b) (hm : man32 a = man32 b) : a = b := by
  apply BitVec.eq_of_toNat_eq
  rw [toNat_eq_fields32 a, toNat_eq_fields32 b, hs, he, hm]

/-- Two binary16 patterns with the same fields are the same (R43). -/
theorem eq_of_fields16 {h k : Word16} (hs : sign16 h = sign16 k) (he : exp16 h = exp16 k) (hm : man16 h = man16 k) : h = k := by
  apply BitVec.eq_of_toNat_eq
  rw [toNat_eq_fields16 h, toNat_eq_fields16 k, hs, he, hm]

/-- A disjoint OR of a shifted field and a smaller number is their sum. -/
theorem shiftLeft_or_eq_add {n x : Nat} (s : Nat) (h : x < 2 ^ n) : s <<< n ||| x = s * 2 ^ n + x := by
  rw [Nat.shiftLeft_eq, Nat.mul_comm]
  exact (Nat.two_pow_add_eq_or_of_lt h s).symm

theorem pack16_toNat {s x : Nat} (hs : s < 2) (hx : x < 2 ^ 15) : (pack16 s x).toNat = s * 2 ^ 15 + x := by
  rw [pack16, shiftLeft_or_eq_add s hx, BitVec.toNat_ofNat, Nat.mod_eq_of_lt (by omega)]

theorem pack32_toNat {s x : Nat} (hs : s < 2) (hx : x < 2 ^ 31) : (pack32 s x).toNat = s * 2 ^ 31 + x := by
  rw [pack32, shiftLeft_or_eq_add s hx, BitVec.toNat_ofNat, Nat.mod_eq_of_lt (by omega)]

theorem sign16_pack16 {s x : Nat} (hs : s < 2) (hx : x < 2 ^ 15) : sign16 (pack16 s x) = s := by
  rw [sign16_eq, pack16_toNat hs hx]; omega

theorem exp16_pack16 {s x : Nat} (hs : s < 2) (hx : x < 2 ^ 15) : exp16 (pack16 s x) = x / 2 ^ 10 := by
  rw [exp16_eq, pack16_toNat hs hx]; omega

theorem man16_pack16 {s x : Nat} (hs : s < 2) (hx : x < 2 ^ 15) : man16 (pack16 s x) = x % 2 ^ 10 := by
  rw [man16_eq, pack16_toNat hs hx]; omega

theorem sign32_pack32 {s x : Nat} (hs : s < 2) (hx : x < 2 ^ 31) : sign32 (pack32 s x) = s := by
  rw [sign32_eq, pack32_toNat hs hx]; omega

theorem exp32_pack32 {s x : Nat} (hs : s < 2) (hx : x < 2 ^ 31) : exp32 (pack32 s x) = x / 2 ^ 23 := by
  rw [exp32_eq, pack32_toNat hs hx]; omega

theorem man32_pack32 {s x : Nat} (hs : s < 2) (hx : x < 2 ^ 31) : man32 (pack32 s x) = x % 2 ^ 23 := by
  rw [man32_eq, pack32_toNat hs hx]; omega

/-- `topBit m n` is the index of the leading 1 of a non-zero `m` below `2^(n+1)` (R75). -/
theorem topBit_spec {m : Nat} (hm : m ≠ 0) : ∀ n, m < 2 ^ (n + 1) →
    topBit m n ≤ n ∧ 2 ^ topBit m n ≤ m ∧ m < 2 ^ (topBit m n + 1)
  | 0, h => by simp only [topBit]; omega
  | n + 1, h => by
    unfold topBit
    split
    · rename_i hb
      exact ⟨le_rfl, Nat.ge_two_pow_of_testBit hb, h⟩
    · rename_i hb
      have hlt : m < 2 ^ (n + 1) := by
        by_contra hge
        refine hb ?_
        rw [Nat.testBit_eq_decide_div_mod_eq]
        have h1 : m / 2 ^ (n + 1) = 1 := by
          rw [pow_succ] at h
          exact Nat.div_eq_of_lt_le (by omega) (by omega)
        simp [h1]
      have ih := topBit_spec hm n hlt
      exact ⟨by omega, ih.2⟩

end Sys2Proof.Machine
end

