-- ==== Sys2Proof/Laws/Formats.lean ====
section
/-! SUPPORT. The values of R44 in one formula for zeros, subnormals and normals: `significand × 2^(max e 1 − b − p)`. -/

namespace Sys2Proof.Machine

/-- The significand: the mantissa, with the implicit bit of a normal restored (R44). -/
def significand (p e m : Nat) : Nat := if e = 0 then m else m + 2 ^ p

/-- Which patterns are infinities, NaNs, or finite (R44). -/
theorem Format.classify_cases (f : Format) (e m : Nat) :
    (f.classify e m = .nan ↔ e ≠ 0 ∧ e = 2 ^ f.expBits - 1 ∧ m ≠ 0) ∧
    (f.classify e m = .infinity ↔ e ≠ 0 ∧ e = 2 ^ f.expBits - 1 ∧ m = 0) := by
  unfold Format.classify
  split
  · split <;> simp_all
  · split
    · split <;> simp_all
    · simp_all

/-- Every finite value is sign times significand times a power of two (R44). -/
theorem Format.value_of_finite (f : Format) (s e m : Nat) (he : e = 0 ∨ e ≠ 2 ^ f.expBits - 1) :
    f.value s e m =
      .finite ((-1) ^ s * (significand f.manBits e m : ℚ) * (2 : ℚ) ^ ((max e 1 : ℕ) - (f.bias : ℤ) - (f.manBits : ℤ))) := by
  have h2 : (2 : ℚ) ≠ 0 := by norm_num
  have hp : (2 : ℚ) ^ f.manBits ≠ 0 := by positivity
  unfold Format.value Format.classify significand
  by_cases h0 : e = 0
  · subst h0
    by_cases hm : m = 0
    · subst hm; simp
    · simp only [if_pos, hm, if_false]
      congr 1
      rw [show ((max 0 1 : ℕ) : ℤ) = 1 from rfl, zpow_sub₀ h2 (1 - (f.bias : ℤ)), zpow_natCast]
      ring
  · have h31 : e ≠ 2 ^ f.expBits - 1 := by tauto
    simp only [if_neg h0, if_neg h31]
    congr 1
    rw [show max e 1 = e by omega, zpow_sub₀ h2 ((e : ℤ) - f.bias), zpow_natCast]
    push_cast
    field_simp
    ring

/-- A binary32 pattern has a real value exactly when its exponent field is not all ones, and which it is (R44). -/
theorem value32_eq_finite_iff (a : Word32) (x : ℚ) :
    value32 a = .finite x ↔
      exp32 a ≠ 255 ∧ x = (-1) ^ sign32 a * (significand 23 (exp32 a) (man32 a) : ℚ) * (2 : ℚ) ^ ((max (exp32 a) 1 : ℕ) - 150 : ℤ) := by
  by_cases he : exp32 a = 255
  · simp only [he, ne_eq, not_true, false_and, iff_false]
    unfold value32 Format.value Format.classify
    by_cases hm : man32 a = 0 <;> simp [he, hm, binary32]
    split <;> simp
  · rw [value32, Format.value_of_finite _ _ _ _ (Or.inr (by simpa [binary32] using he))]
    simp only [FloatValue.finite.injEq, ne_eq, he, not_false_eq_true, true_and]
    rw [eq_comm, show ((max (exp32 a) 1 : ℕ) - (binary32.bias : ℤ) - (binary32.manBits : ℤ)) = ((max (exp32 a) 1 : ℕ) - 150 : ℤ) by
      simp only [binary32]; ring]
    rfl

/-- A binary16 pattern has a real value exactly when its exponent field is not all ones, and which it is (R44). -/
theorem value16_eq_finite_iff (h : Word16) (x : ℚ) :
    value16 h = .finite x ↔
      exp16 h ≠ 31 ∧ x = (-1) ^ sign16 h * (significand 10 (exp16 h) (man16 h) : ℚ) * (2 : ℚ) ^ ((max (exp16 h) 1 : ℕ) - 25 : ℤ) := by
  by_cases he : exp16 h = 31
  · simp only [he, ne_eq, not_true, false_and, iff_false]
    unfold value16 Format.value Format.classify
    by_cases hm : man16 h = 0 <;> simp [he, hm, binary16]
    split <;> simp
  · rw [value16, Format.value_of_finite _ _ _ _ (Or.inr (by simpa [binary16] using he))]
    simp only [FloatValue.finite.injEq, ne_eq, he, not_false_eq_true, true_and]
    rw [eq_comm, show ((max (exp16 h) 1 : ℕ) - (binary16.bias : ℤ) - (binary16.manBits : ℤ)) = ((max (exp16 h) 1 : ℕ) - 25 : ℤ) by
      simp only [binary16]; ring]
    rfl

/-- The value of a binary32 pattern whose fields are known. -/
theorem value32_of_fields {a : Word32} {s e m : Nat} (hs : sign32 a = s) (he : exp32 a = e) (hm : man32 a = m) (hfin : e ≠ 255) :
    value32 a = .finite ((-1) ^ s * (significand 23 e m : ℚ) * (2 : ℚ) ^ ((max e 1 : ℕ) - 150 : ℤ)) := by
  subst hs he hm
  exact (value32_eq_finite_iff a _).2 ⟨hfin, rfl⟩

/-- The value of a binary16 pattern whose fields are known. -/
theorem value16_of_fields {h : Word16} {s e m : Nat} (hs : sign16 h = s) (he : exp16 h = e) (hm : man16 h = m) (hfin : e ≠ 31) :
    value16 h = .finite ((-1) ^ s * (significand 10 e m : ℚ) * (2 : ℚ) ^ ((max e 1 : ℕ) - 25 : ℤ)) := by
  subst hs he hm
  exact (value16_eq_finite_iff h _).2 ⟨hfin, rfl⟩

end Sys2Proof.Machine
end

