-- ==== Sys2Proof/Laws/Narrow.lean ====
section
/-! SUPPORT. The parts of `narrow16`, in arithmetic: ranges and the packed result. -/

namespace Sys2Proof.Machine

/-- Every `NAN_FIX` keeps a 10-bit fragment a non-zero 10-bit fragment (R55, R56). -/
theorem fixNan_bounds (fix : NanFix) {f : Nat} (hf : f < 2 ^ 10) : 0 < fixNan fix f ∧ fixNan fix f < 2 ^ 10 := by
  cases fix with
  | setLsbIfZero => simp only [fixNan]; split <;> omega
  | orLsb => exact ⟨Nat.pos_of_ne_zero (by simp [fixNan]), Nat.or_lt_two_pow hf (by omega)⟩
  | orQuiet => exact ⟨Nat.pos_of_ne_zero (by simp [fixNan]), Nat.or_lt_two_pow hf (by omega)⟩

/-- Forcing a fragment twice is forcing it once, under every `NAN_FIX` (R56). -/
theorem fixNan_idempotent (fix : NanFix) (f : Nat) : fixNan fix (fixNan fix f) = fixNan fix f := by
  cases fix with
  | setLsbIfZero => simp only [fixNan]; split <;> simp_all
  | orLsb => simp [fixNan]
  | orQuiet => simp [fixNan]

/-- The magnitude of an infinity or NaN as a sum: exponent 31, mantissa 0 or the forced fragment (R54, R55). -/
theorem narrowSpecial_eq (fix : NanFix) {m : Nat} (hm : m < 2 ^ 23) :
    narrowSpecial fix m = 31 * 2 ^ 10 + if m = 0 then 0 else fixNan fix (m / 2 ^ 13) := by
  unfold narrowSpecial
  split
  · rfl
  · have h := (fixNan_bounds fix (show m / 2 ^ 13 < 2 ^ 10 by omega)).2
    rw [Nat.shiftRight_eq_div_pow, show (0x7C00 : Nat) = 31 <<< 10 from rfl, shiftLeft_or_eq_add 31 h]

/-- The subnormal path in arithmetic (R60): the significand is `m + 2^23`. -/
theorem narrowSubnormal_eq {m : Nat} (e16 : Int) (hm : m < 2 ^ 23) :
    narrowSubnormal e16 m =
      roundEven ((m + 2 ^ 23) / 2 ^ (14 - e16).toNat) (roundBit (m + 2 ^ 23) (14 - e16).toNat)
        (sticky (m + 2 ^ 23) (14 - e16).toNat) := by
  have h : m ||| 0x800000 = m + 2 ^ 23 := by
    rw [Nat.or_comm, show (0x800000 : Nat) = 1 <<< 23 from rfl, shiftLeft_or_eq_add 1 hm]; omega
  simp only [narrowSubnormal, h, Nat.shiftRight_eq_div_pow]

/-- The normal path in arithmetic (R62): the packed field is `e16 × 2^10 + m / 2^13`. -/
theorem narrowNormal_eq {m : Nat} (e16 : Int) (hm : m < 2 ^ 23) :
    narrowNormal e16 m =
      roundEven (e16.toNat * 2 ^ 10 + m / 2 ^ 13) (roundBit m 13) (sticky m 13) := by
  rw [narrowNormal, Nat.shiftRight_eq_div_pow, shiftLeft_or_eq_add _ (show m / 2 ^ 13 < 2 ^ 10 by omega)]

/-- A subnormal result is at most the smallest normal, 0x400 (R60, R63). -/
theorem narrowSubnormal_le {e16 : Int} {m : Nat} (he : e16 ≤ 0) (hm : m < 2 ^ 23) : narrowSubnormal e16 m ≤ 0x400 := by
  rw [narrowSubnormal_eq e16 hm]
  have hb := (roundEven_bounds (t := (m + 2 ^ 23) / 2 ^ (14 - e16).toNat) (roundBit_lt (m + 2 ^ 23) (14 - e16).toNat)
    (sticky_lt (m + 2 ^ 23) (14 - e16).toNat)).2
  have hk : (m + 2 ^ 23) / 2 ^ (14 - e16).toNat < 2 ^ 10 := by
    rw [Nat.div_lt_iff_lt_mul (by positivity)]
    calc m + 2 ^ 23 < 2 ^ 10 * 2 ^ 14 := by omega
      _ ≤ 2 ^ 10 * 2 ^ (14 - e16).toNat := Nat.mul_le_mul_left _ (Nat.pow_le_pow_right (by omega) (by omega))
  omega

/-- A normal result is between the smallest normal and infinity (R62, R63). -/
theorem narrowNormal_bounds {e16 : Int} {m : Nat} (h1 : 1 ≤ e16) (h30 : e16 ≤ 30) (hm : m < 2 ^ 23) :
    0x400 ≤ narrowNormal e16 m ∧ narrowNormal e16 m ≤ 0x7C00 := by
  rw [narrowNormal_eq e16 hm]
  have hb := roundEven_bounds (t := e16.toNat * 2 ^ 10 + m / 2 ^ 13) (roundBit_lt m 13) (sticky_lt m 13)
  omega

/-- The magnitude of a result is below the sign bit: "at most 0x7FFF" (R66). -/
theorem narrowMagnitude_lt (fix : NanFix) (e : Nat) {m : Nat} (hm : m < 2 ^ 23) : narrowMagnitude fix e m < 2 ^ 15 := by
  unfold narrowMagnitude
  split
  · rw [narrowSpecial_eq fix hm]
    have := fixNan_bounds fix (show m / 2 ^ 13 < 2 ^ 10 by omega)
    split <;> omega
  · split
    · omega
    · split
      · omega
      · split
        · rename_i h; have := narrowSubnormal_le h hm; omega
        · have := (narrowNormal_bounds (e16 := rebias e) (by omega) (by omega) hm).2; omega

/-- The fields of a narrowed pattern: the sign of the operand, and the exponent and mantissa of the magnitude. -/
theorem narrow16_fields (fix : NanFix) (a : Word32) :
    sign16 (narrow16 fix a) = sign32 a ∧
    exp16 (narrow16 fix a) = narrowMagnitude fix (exp32 a) (man32 a) / 2 ^ 10 ∧
    man16 (narrow16 fix a) = narrowMagnitude fix (exp32 a) (man32 a) % 2 ^ 10 := by
  have h := narrowMagnitude_lt fix (exp32 a) (man32_lt a)
  exact ⟨sign16_pack16 (sign32_lt a) h, exp16_pack16 (sign32_lt a) h, man16_pack16 (sign32_lt a) h⟩

/-- Zero-extension of a binary16 pattern is the pattern under sixteen zero bits (R67). -/
theorem zeroExtend_eq_append (h : Word16) : h.setWidth 32 = 0x0000#16 ++ h := by
  apply BitVec.eq_of_toNat_eq
  have h1 := h.isLt
  have h2 : (0x0000#16 ++ h).toNat = (0x0000#16).toNat <<< 16 ||| h.toNat := BitVec.toNat_append 0x0000#16 h
  rw [BitVec.toNat_setWidth, Nat.mod_eq_of_lt (by omega)]
  exact (h2.trans (by simp)).symm

end Sys2Proof.Machine
end

