-- ==== Sys2Proof/Laws/State.lean ====
section
/-! SUPPORT. The field lemmas of every update of the state, so that no later proof unfolds one. -/

namespace Sys2Proof.Machine

@[simp] theorem State.resetEdge_rspValid (s : State) : s.resetEdge.rspValid = false := rfl
@[simp] theorem State.resetEdge_rspData (s : State) : s.resetEdge.rspData = 0x00000000#32 := rfl
@[simp] theorem State.resetEdge_rspErr (s : State) : s.resetEdge.rspErr = false := rfl
@[simp] theorem State.resetEdge_inputs (s : State) : s.resetEdge.inputs = s.inputs := rfl
@[simp] theorem State.resetEdge_afterReset (s : State) : s.resetEdge.afterReset = true := rfl
@[simp] theorem State.resetEdge_draws (s : State) : s.resetEdge.draws = s.draws := rfl

@[simp] theorem State.drawRegisters_rspValid (s : State) : s.drawRegisters.rspValid = Config.powerOnValid s.draws := rfl
@[simp] theorem State.drawRegisters_rspData (s : State) : s.drawRegisters.rspData = Config.powerOnData s.draws := rfl
@[simp] theorem State.drawRegisters_rspErr (s : State) : s.drawRegisters.rspErr = Config.powerOnErr s.draws := rfl
@[simp] theorem State.drawRegisters_inputs (s : State) : s.drawRegisters.inputs = s.inputs := rfl
@[simp] theorem State.drawRegisters_afterReset (s : State) : s.drawRegisters.afterReset = s.afterReset := rfl
@[simp] theorem State.drawRegisters_draws (s : State) : s.drawRegisters.draws = s.draws + 1 := rfl

@[simp] theorem State.outputs_rspValid (s : State) : s.outputs.rspValid = s.rspValid := rfl
@[simp] theorem State.outputs_rspData (s : State) : s.outputs.rspData = s.rspData := rfl
@[simp] theorem State.outputs_rspErr (s : State) : s.outputs.rspErr = s.rspErr := rfl

@[simp] theorem State.withProgram_inputs (s : State) (p : List Line) : (s.withProgram p).inputs = p.map Line.inputs := rfl
@[simp] theorem State.withProgram_outputs (s : State) (p : List Line) : (s.withProgram p).outputs = s.outputs := rfl
@[simp] theorem State.withProgram_afterReset (s : State) (p : List Line) : (s.withProgram p).afterReset = s.afterReset := rfl

@[simp] theorem State.withFetchWord_inputs (s : State) (nbits w : Nat) :
    (s.withFetchWord nbits w).inputs = tableInputs nbits w :: s.inputs.tail := rfl
@[simp] theorem State.withFetchWord_outputs (s : State) (nbits w : Nat) :
    (s.withFetchWord nbits w).outputs = s.outputs := rfl
@[simp] theorem State.withFetchWord_afterReset (s : State) (nbits w : Nat) :
    (s.withFetchWord nbits w).afterReset = s.afterReset := rfl

@[simp] theorem State.reset_afterReset : State.reset.afterReset = true := rfl
@[simp] theorem State.reset_inputs : State.reset.inputs = [] := rfl
@[simp] theorem State.powerOn_afterReset (cs : List Inputs) : (State.powerOn cs).afterReset = false := rfl
@[simp] theorem State.powerOn_inputs (cs : List Inputs) : (State.powerOn cs).inputs = cs := rfl

end Sys2Proof.Machine
end

