-- ==== Sys2Proof/Laws/Ops.lean ====
section
/-! SUPPORT. What each shared operation over the registers can do, said once. -/

namespace Sys2Proof.Machine

/-- A response after the first reset: the three registers, and nothing else (R15). -/
theorem State.respond_of_afterReset {s : State} (h : s.afterReset = true) (d : Word32) (e : Bool) :
    s.respond d e = { s with rspValid := true, rspData := d, rspErr := e } := by
  simp [State.respond, h]

/-- A response before the first reset: all registers are drawn (R24). -/
theorem State.respond_of_not_afterReset {s : State} (h : s.afterReset = false) (d : Word32) (e : Bool) :
    s.respond d e = s.drawRegisters := by
  simp [State.respond, h]

/-- An idle edge after the first reset clears `rsp_valid` only (R15, R16). -/
theorem State.idleEdge_of_afterReset {s : State} (h : s.afterReset = true) :
    s.idleEdge = { s with rspValid := false } := by
  simp [State.idleEdge, h]

/-- An idle edge before the first reset: all registers are drawn (R24). -/
theorem State.idleEdge_of_not_afterReset {s : State} (h : s.afterReset = false) : s.idleEdge = s.drawRegisters := by
  simp [State.idleEdge, h]

@[simp] theorem State.respond_inputs (s : State) (d : Word32) (e : Bool) : (s.respond d e).inputs = s.inputs := by
  unfold State.respond; split <;> rfl

@[simp] theorem State.respond_afterReset (s : State) (d : Word32) (e : Bool) :
    (s.respond d e).afterReset = s.afterReset := by
  unfold State.respond; split <;> rfl

@[simp] theorem State.idleEdge_inputs (s : State) : s.idleEdge.inputs = s.inputs := by
  unfold State.idleEdge; split <;> rfl

@[simp] theorem State.idleEdge_afterReset (s : State) : s.idleEdge.afterReset = s.afterReset := by
  unfold State.idleEdge; split <;> rfl

/-- The edge resets exactly when `rst` is 1 (R103). -/
theorem sample_eq_reset_iff (c : Inputs) : sample c = .reset ↔ c.rst = some true := by
  obtain ⟨rst, valid, op, a⟩ := c
  rcases rst with _ | _ | _ <;> rcases valid with _ | _ | _ <;> cases op <;> cases a <;> simp [sample]

/-- The edge is idle exactly when `rst` and `req_valid` are 0 (R15). -/
theorem sample_eq_idle_iff (c : Inputs) : sample c = .idle ↔ c.rst = some false ∧ c.reqValid = some false := by
  obtain ⟨rst, valid, op, a⟩ := c
  rcases rst with _ | _ | _ <;> rcases valid with _ | _ | _ <;> cases op <;> cases a <;> simp [sample]

/-- The edge accepts a command exactly when `rst` is 0, `req_valid` is 1 and the two fields make up the command (R13, R38). -/
theorem sample_eq_accept_iff (c : Inputs) (cmd : Command) :
    sample c = .accept cmd ↔ c.rst = some false ∧ c.reqValid = some true ∧
      ∃ op a, c.reqOp = some op ∧ c.reqA = some a ∧ commandOf op a = cmd := by
  obtain ⟨rst, valid, op, a⟩ := c
  rcases rst with _ | _ | _ <;> rcases valid with _ | _ | _ <;> cases op <;> cases a <;> simp [sample]

/-- The edge is unsteady exactly when the host breaks R109 there. -/
theorem sample_eq_unsteady_iff (c : Inputs) : sample c = .unsteady ↔ c.steady = false := by
  obtain ⟨rst, valid, op, a⟩ := c
  rcases rst with _ | _ | _ <;> rcases valid with _ | _ | _ <;> cases op <;> cases a <;> simp [sample, Inputs.steady]

end Sys2Proof.Machine
end

