-- ==== Sys2Proof/Laws/PerInstr.lean ====
section
/-! SUPPORT. What is proved instruction by instruction: the op field of an encoded command is the table's (R39), and its row
matches it (R50). -/

namespace Sys2Proof.Laws

/-- The op field values of R39. -/
def EncodedOpField.opField : Instr → OpField
  | .narrow _ => 0b00#2
  | .widen _ _ => 0b01#2
  | .qhalf _ => 0b10#2
  | .rsvd _ => 0b11#2

/-- The encoded command carries its op, and decodes to an instruction of the same mnemonic. -/
def EncodedOpField.Statement (i : Instr) : Prop :=
  opOf (encode i) = EncodedOpField.opField i ∧ (decode (encode i)).mnemonic = i.mnemonic

theorem EncodedOpField.narrow (a : Word32) : EncodedOpField.Statement (.narrow a) := by
  simp [EncodedOpField.Statement, EncodedOpField.opField, encode, decode, Instr.mnemonic]

theorem EncodedOpField.widen (aHi h : Word16) : EncodedOpField.Statement (.widen aHi h) := by
  simp [EncodedOpField.Statement, EncodedOpField.opField, encode, decode, Instr.mnemonic]

theorem EncodedOpField.qhalf (a : Word32) : EncodedOpField.Statement (.qhalf a) := by
  simp [EncodedOpField.Statement, EncodedOpField.opField, encode, decode, Instr.mnemonic]

theorem EncodedOpField.rsvd (a : Word32) : EncodedOpField.Statement (.rsvd a) := by
  simp [EncodedOpField.Statement, EncodedOpField.opField, encode, decode, Instr.mnemonic]

end Sys2Proof.Laws
end

