-- ==== Sys2Proof/Laws/Step.lean ====
section
/-! SUPPORT. What one step can do, said once. -/

namespace Sys2Proof.Machine

/-- The data and error bit an instruction answers with (R45). -/
def answerOf : Instr → Word32 × Bool
  | .narrow a => ((narrow16 Config.nanFix a).setWidth 32, false)
  | .widen _ h => (widen32 h, false)
  | .qhalf a => (qhalf Config.nanFix a, false)
  | .rsvd _ => (0x00000000#32, true)

/-- Every instruction answers with one response, and that is all it does (R15, R93). -/
theorem exec_eq_respond (i : Instr) (s : State) : exec i s = .next (s.respond (answerOf i).1 (answerOf i).2) := by
  cases i <;> rfl

/-- With no cycle to come nothing changes (R102). -/
theorem step_of_nil {s : State} (h : s.inputs = []) : step s = .next s := by
  simp [step, h]

theorem step_of_cons {s : State} {c : Inputs} {rest : List Inputs} (h : s.inputs = c :: rest) :
    step s = edge c { s with inputs := rest } := by
  simp [step, h]

theorem edge_of_reset {c : Inputs} (h : c.rst = some true) (s : State) : edge c s = .next s.resetEdge := by
  rw [edge, (sample_eq_reset_iff c).2 h]

theorem edge_of_idle {c : Inputs} (hr : c.rst = some false) (hv : c.reqValid = some false) (s : State) :
    edge c s = .next s.idleEdge := by
  rw [edge, (sample_eq_idle_iff c).2 ⟨hr, hv⟩]

theorem edge_of_accept {c : Inputs} {op : OpField} {a : Word32} (hr : c.rst = some false) (hv : c.reqValid = some true)
    (ho : c.reqOp = some op) (ha : c.reqA = some a) (s : State) : edge c s = exec (decode (commandOf op a)) s := by
  rw [edge, (sample_eq_accept_iff c (commandOf op a)).2 ⟨hr, hv, op, a, ho, ha, rfl⟩]

theorem edge_of_unsteady {c : Inputs} (h : c.steady = false) (s : State) : edge c s = .refused .unsteadyInput := by
  rw [edge, (sample_eq_unsteady_iff c).2 h]

/-- A cycle that presents a command runs its decoded instruction. -/
theorem edge_requestInputs (cmd : Command) (s : State) : edge (requestInputs cmd) s = exec (decode cmd) s := by
  rw [edge_of_accept (c := requestInputs cmd) rfl rfl rfl rfl, commandOf_fields]

/-- If a step answers a next state, then it is one of these: no cycle was left; or the next cycle was taken, by a reset edge, by a
response, or by an idle edge. -/
theorem step_cases {s t : State} (h : step s = .next t) :
    (s.inputs = [] ∧ t = s) ∨
    ∃ c rest, s.inputs = c :: rest ∧
      ((c.rst = some true ∧ t = State.resetEdge { s with inputs := rest }) ∨
       (∃ op a, c = { rst := some false, reqValid := some true, reqOp := some op, reqA := some a } ∧
          t = State.respond { s with inputs := rest } (answerOf (decode (commandOf op a))).1
            (answerOf (decode (commandOf op a))).2) ∨
       (c.rst = some false ∧ c.reqValid = some false ∧ t = State.idleEdge { s with inputs := rest })) := by
  cases hin : s.inputs with
  | nil => rw [step_of_nil hin] at h; cases h; exact .inl ⟨rfl, rfl⟩
  | cons c rest =>
    refine .inr ⟨c, rest, rfl, ?_⟩
    rw [step_of_cons hin, edge] at h
    cases hs : sample c with
    | reset =>
      rw [hs] at h; cases h
      exact .inl ⟨(sample_eq_reset_iff c).1 hs, rfl⟩
    | accept cmd =>
      obtain ⟨hr, hv, op, a, ho, ha, rfl⟩ := (sample_eq_accept_iff c cmd).1 hs
      rw [hs] at h
      simp only [exec_eq_respond, Host.Outcome.next.injEq] at h
      refine .inr (.inl ⟨op, a, ?_, h.symm⟩)
      cases c; simp_all
    | idle =>
      obtain ⟨hr, hv⟩ := (sample_eq_idle_iff c).1 hs
      rw [hs] at h; cases h
      exact .inr (.inr ⟨hr, hv, rfl⟩)
    | unsteady => rw [hs] at h; cases h

/-- A run of `k + 1` steps whose first answers a next state goes on from it, on any machine of the host's. -/
theorem run_succ_of_next (M : Host.Core) {s t : M.State} (h : M.step s = .next t) (k : Nat) :
    M.run (k + 1) s = M.run k t := by
  rw [Host.Core.run, h]

theorem core_run_succ {s t : State} (h : step s = .next t) (k : Nat) :
    Host.Core.run Sys2Proof.core (k + 1) s = Host.Core.run Sys2Proof.core k t :=
  run_succ_of_next Sys2Proof.core (s := s) (t := t) h k

theorem core_run_zero (s : State) : Host.Core.run Sys2Proof.core 0 s = .next s := rfl

end Sys2Proof.Machine
end

