-- ==== Sys2Proof/Laws/Widen.lean ====
section
/-! SUPPORT. The parts of `widen32`, in arithmetic: ranges and the packed result. -/

namespace Sys2Proof.Machine

/-- Moving the leading 1 of a subnormal to bit 23 and dropping it leaves 23 bits (R75). -/
theorem dropLeadingOne_lt {m p : Nat} (hp : p ≤ 9) (hhi : m < 2 ^ (p + 1)) : (m - 2 ^ p) * 2 ^ (23 - p) < 2 ^ 23 := by
  have hsplit : 2 ^ p * 2 ^ (23 - p) = 2 ^ 23 := by rw [← pow_add]; congr 1; omega
  rw [← hsplit]
  exact Nat.mul_lt_mul_of_pos_right (by rw [pow_succ] at hhi; have := Nat.two_pow_pos p; omega) (by positivity)

/-- Masking the shifted mantissa removes exactly its leading 1 (R75). -/
theorem mask_shifted_eq {m p : Nat} (hp : p ≤ 9) (hlo : 2 ^ p ≤ m) (hhi : m < 2 ^ (p + 1)) :
    (m <<< (23 - p)) &&& 0x7FFFFF = (m - 2 ^ p) * 2 ^ (23 - p) := by
  have hsplit : 2 ^ p * 2 ^ (23 - p) = 2 ^ 23 := by rw [← pow_add]; congr 1; omega
  have hsum : m * 2 ^ (23 - p) = (m - 2 ^ p) * 2 ^ (23 - p) + 2 ^ 23 := by
    rw [← hsplit, ← Nat.add_mul]; congr 1; omega
  rw [show (0x7FFFFF : Nat) = 2 ^ 23 - 1 from rfl, Nat.and_two_pow_sub_one_eq_mod, Nat.shiftLeft_eq, hsum,
    Nat.add_mod_right, Nat.mod_eq_of_lt (dropLeadingOne_lt hp hhi)]

/-- The subnormal path in arithmetic (R75): exponent `103 + p`, and the mantissa without its leading 1, moved up. -/
theorem widenSubnormal_eq {m : Nat} (hm0 : m ≠ 0) (hm : m < 2 ^ 10) :
    widenSubnormal m = (103 + topBit m 9) * 2 ^ 23 + (m - 2 ^ topBit m 9) * 2 ^ (23 - topBit m 9) := by
  obtain ⟨hp9, hlo, hhi⟩ := topBit_spec hm0 9 (by omega)
  simp only [widenSubnormal]
  rw [mask_shifted_eq hp9 hlo hhi, shiftLeft_or_eq_add _ (dropLeadingOne_lt hp9 hhi)]

/-- The magnitude of a widened pattern as a sum, case by case (R74 to R77). -/
theorem widenMagnitude_eq (e : Nat) {m : Nat} (hm : m < 2 ^ 10) :
    widenMagnitude e m =
      if e = 31 then 255 * 2 ^ 23 + m * 2 ^ 13
      else if e = 0 then
        (if m = 0 then 0 else (103 + topBit m 9) * 2 ^ 23 + (m - 2 ^ topBit m 9) * 2 ^ (23 - topBit m 9))
      else (e + 112) * 2 ^ 23 + m * 2 ^ 13 := by
  have hs : m <<< 13 = m * 2 ^ 13 := Nat.shiftLeft_eq ..
  have hlt : m <<< 13 < 2 ^ 23 := by omega
  unfold widenMagnitude
  split
  · rw [show (0x7F800000 : Nat) = 255 <<< 23 from rfl, shiftLeft_or_eq_add _ hlt, hs]
  · split
    · split
      · rfl
      · rename_i h; exact widenSubnormal_eq h hm
    · rw [shiftLeft_or_eq_add _ hlt, hs]

/-- The magnitude of a widened pattern is below the sign bit. -/
theorem widenMagnitude_lt {e m : Nat} (he : e < 32) (hm : m < 2 ^ 10) : widenMagnitude e m < 2 ^ 31 := by
  rw [widenMagnitude_eq e hm]
  split
  · omega
  · split
    · split
      · omega
      · rename_i h
        obtain ⟨hp9, -, hhi⟩ := topBit_spec h 9 (by omega)
        have := dropLeadingOne_lt hp9 hhi
        omega
    · omega

/-- The fields of a widened pattern: the sign of the operand, and the exponent and mantissa of the magnitude. -/
theorem widen32_fields (h : Word16) :
    sign32 (widen32 h) = sign16 h ∧
    exp32 (widen32 h) = widenMagnitude (exp16 h) (man16 h) / 2 ^ 23 ∧
    man32 (widen32 h) = widenMagnitude (exp16 h) (man16 h) % 2 ^ 23 := by
  have hw := widenMagnitude_lt (exp16_lt h) (man16_lt h)
  exact ⟨sign32_pack32 (sign16_lt h) hw, exp32_pack32 (sign16_lt h) hw, man32_pack32 (sign16_lt h) hw⟩

end Sys2Proof.Machine
end

