-- ==== Sys2Proof/Tests/Slice0.lean ====
section
/-! SUPPORT. Tests of the model: expected values are those of spec/95_test_vectors.md, or are written out by hand from the encodings
of 30_encoding.md; and, for every statement with hypotheses, a witness that meets them. -/

namespace Sys2Proof.Machine

/-! ### The conversions, on the tables of 95_test_vectors.md section 2 -/

/-- Vectors V-N1 to V-N38. -/
def narrowVectors : List (Word32 × Word16) :=
  [
    (0x00000000#32, 0x0000#16), (0x80000000#32, 0x8000#16), (0x3F800000#32, 0x3C00#16), (0xBF800000#32, 0xBC00#16),
    (0x3EAAAAAB#32, 0x3555#16), (0x40490FDB#32, 0x4248#16), (0x3DCCCCCD#32, 0x2E66#16), (0x3F801000#32, 0x3C00#16),
    (0x3F803000#32, 0x3C02#16), (0x3F801001#32, 0x3C01#16), (0x3F800FFF#32, 0x3C00#16), (0x3F7FF000#32, 0x3C00#16),
    (0x7F7FFFFF#32, 0x7C00#16), (0x477FE000#32, 0x7BFF#16), (0x477FEFFF#32, 0x7BFF#16), (0x477FF000#32, 0x7C00#16),
    (0x47800000#32, 0x7C00#16), (0xC77FF000#32, 0xFC00#16), (0xC77FE000#32, 0xFBFF#16), (0x7F800000#32, 0x7C00#16),
    (0xFF800000#32, 0xFC00#16), (0x38800000#32, 0x0400#16), (0x387FFFFF#32, 0x0400#16), (0x387FC000#32, 0x03FF#16),
    (0x387FE000#32, 0x0400#16), (0x38000000#32, 0x0200#16), (0x35000000#32, 0x0008#16), (0x3727C5AC#32, 0x00A8#16),
    (0x33800000#32, 0x0001#16), (0x33C00000#32, 0x0002#16), (0x33A00000#32, 0x0001#16), (0x33000001#32, 0x0001#16),
    (0x33000000#32, 0x0000#16), (0xB3000000#32, 0x8000#16), (0x32FFFFFF#32, 0x0000#16), (0x00000001#32, 0x0000#16),
    (0x807FFFFF#32, 0x8000#16), (0x00800000#32, 0x0000#16)
  ]

theorem test_narrow_vectors : narrowVectors.map (fun v => narrow16 .setLsbIfZero v.1) = narrowVectors.map Prod.snd := by rfl

/-- Vectors V-NaN1 to V-NaN7, under each `NAN_FIX`. -/
def nanVectors : List (Word32 × Word16 × Word16 × Word16) :=
  [
    (0x7FC00000#32, 0x7E00#16, 0x7E01#16, 0x7E00#16), (0x7F800001#32, 0x7C01#16, 0x7C01#16, 0x7E00#16),
    (0xFFFFFFFF#32, 0xFFFF#16, 0xFFFF#16, 0xFFFF#16), (0x7FA00000#32, 0x7D00#16, 0x7D01#16, 0x7F00#16),
    (0xFF802000#32, 0xFC01#16, 0xFC01#16, 0xFE01#16), (0x7F801FFF#32, 0x7C01#16, 0x7C01#16, 0x7E00#16),
    (0xFFC00001#32, 0xFE00#16, 0xFE01#16, 0xFE00#16)
  ]

theorem test_narrow_nan_vectors :
    nanVectors.map (fun v => (narrow16 .setLsbIfZero v.1, narrow16 .orLsb v.1, narrow16 .orQuiet v.1)) =
      nanVectors.map Prod.snd := by rfl

/-- Vectors V-W1 to V-W21 (the last one's upper half is tested at the command word below). -/
def widenVectors : List (Word16 × Word32) :=
  [
    (0x0000#16, 0x00000000#32), (0x8000#16, 0x80000000#32), (0x0001#16, 0x33800000#32), (0x8001#16, 0xB3800000#32),
    (0x0200#16, 0x38000000#32), (0x8200#16, 0xB8000000#32), (0x03FF#16, 0x387FC000#32), (0x0400#16, 0x38800000#32),
    (0x3C00#16, 0x3F800000#32), (0xBC00#16, 0xBF800000#32), (0x3555#16, 0x3EAAA000#32), (0x3C01#16, 0x3F802000#32),
    (0x7BFF#16, 0x477FE000#32), (0xFBFF#16, 0xC77FE000#32), (0x7C00#16, 0x7F800000#32), (0xFC00#16, 0xFF800000#32),
    (0x7E00#16, 0x7FC00000#32), (0x7C01#16, 0x7F802000#32), (0x7D00#16, 0x7FA00000#32), (0xFFFF#16, 0xFFFFE000#32),
    (0x3C00#16, 0x3F800000#32)
  ]

theorem test_widen_vectors : widenVectors.map (fun v => widen32 v.1) = widenVectors.map Prod.snd := by rfl

/-- Vectors V-Q1 to V-Q15, under each `NAN_FIX`. -/
def qhalfVectors : List (Word32 × Word32 × Word32 × Word32) :=
  [
    (0x3EAAAAAB#32, 0x3EAAA000#32, 0x3EAAA000#32, 0x3EAAA000#32),
    (0x80000000#32, 0x80000000#32, 0x80000000#32, 0x80000000#32),
    (0x3F801000#32, 0x3F800000#32, 0x3F800000#32, 0x3F800000#32),
    (0x40490FDB#32, 0x40490000#32, 0x40490000#32, 0x40490000#32),
    (0x40490000#32, 0x40490000#32, 0x40490000#32, 0x40490000#32),
    (0x477FEFFF#32, 0x477FE000#32, 0x477FE000#32, 0x477FE000#32),
    (0x477FF000#32, 0x7F800000#32, 0x7F800000#32, 0x7F800000#32),
    (0xFF800000#32, 0xFF800000#32, 0xFF800000#32, 0xFF800000#32),
    (0x33C00000#32, 0x34000000#32, 0x34000000#32, 0x34000000#32),
    (0x33000000#32, 0x00000000#32, 0x00000000#32, 0x00000000#32),
    (0x387FE000#32, 0x38800000#32, 0x38800000#32, 0x38800000#32),
    (0x00000001#32, 0x00000000#32, 0x00000000#32, 0x00000000#32),
    (0x7FC00000#32, 0x7FC00000#32, 0x7FC02000#32, 0x7FC00000#32),
    (0x7F800001#32, 0x7F802000#32, 0x7F802000#32, 0x7FC00000#32),
    (0xFFA00000#32, 0xFFA00000#32, 0xFFA02000#32, 0xFFE00000#32)
  ]

theorem test_qhalf_vectors :
    qhalfVectors.map (fun v => (qhalf .setLsbIfZero v.1, qhalf .orLsb v.1, qhalf .orQuiet v.1)) =
      qhalfVectors.map Prod.snd := by rfl

/-! ### The checks of WellFormed.lean, and decoding -/

theorem test_wellFormed_every_command :
    (Instr.narrow 0xFFFFFFFF#32).wellFormed = true ∧ (Instr.widen 0xDEAD#16 0x7C01#16).wellFormed = true ∧
    (Instr.qhalf 0x7F800001#32).wellFormed = true ∧ (Instr.rsvd 0x12345678#32).wellFormed = true := by decide

/-- 34 bits is the most a command word has: the check refuses 2^34 and takes 2^34 − 1. -/
theorem test_commandFits_refuses_35_bits : commandFits 0x400000000 = false ∧ commandFits 0x3FFFFFFFF = true := by decide

/-- One ill-formed cycle for each port that an edge samples. -/
theorem test_steady_refuses_undriven_ports :
    Inputs.steady { rst := none, reqValid := some true, reqOp := some 0b00#2, reqA := some 0x0#32 } = false ∧
    Inputs.steady { rst := some false, reqValid := none, reqOp := some 0b00#2, reqA := some 0x0#32 } = false ∧
    Inputs.steady { rst := some false, reqValid := some true, reqOp := none, reqA := some 0x0#32 } = false ∧
    Inputs.steady { rst := some false, reqValid := some true, reqOp := some 0b00#2, reqA := none } = false := by decide

/-- `IDLE` and `RESET` with every other input undriven are well-formed cycles (R49). -/
theorem test_steady_takes_dont_care : Line.idle.inputs.steady = true ∧ Line.reset.inputs.steady = true := by decide

/-- `NARROW 0x3F800000` is 00, then the operand bit by bit (R38, R39). -/
theorem test_decode_narrow :
    decode 0b0000111111100000000000000000000000#34 = .narrow 0b00111111100000000000000000000000#32 := by decide

/-- `WIDEN 0xDEAD7E00` is 01, then 1101111010101101, then 0111111000000000. -/
theorem test_decode_widen :
    decode 0b0111011110101011010111111000000000#34 = .widen 0b1101111010101101#16 0b0111111000000000#16 := by decide

/-- `QHALF 0x80000000` is 10, then the operand. -/
theorem test_decode_qhalf :
    decode 0b1010000000000000000000000000000000#34 = .qhalf 0b10000000000000000000000000000000#32 := by decide

/-- `RSVD 0x12345678` is 11, then the operand. -/
theorem test_decode_rsvd :
    decode 0b1100010010001101000101011001111000#34 = .rsvd 0b00010010001101000101011001111000#32 := by decide

/-- The words of R49, as the table numbers their bits; one bit more is refused by name. -/
theorem test_decodeTableWord :
    decodeTableWord 40 0x03F800000 = some (.narrow 0x3F800000#32) ∧ decodeTableWord 40 0x100004248 = some (.widen 0x0#16 0x4248#16) ∧
    decodeTableWord 40 0x240490FDB = some (.qhalf 0x40490FDB#32) ∧ decodeTableWord 40 0x3FFFFFFFF = some (.rsvd 0xFFFFFFFF#32) ∧
    decodeTableWord 40 0x400000000 = none := by decide

theorem test_decodeNat_rejects_by_name : decodeNat 0x400000000 = .error .widerThanCommand := by rfl

/-- The encoder gives the words of R49. -/
theorem test_encode :
    encode (.narrow 0x3F800000#32) = 0x03F800000#34 ∧ encode (.widen 0xDEAD#16 0x7E00#16) = 0x1DEAD7E00#34 ∧
    encode (.qhalf 0x80000000#32) = 0x280000000#34 ∧ encode (.rsvd 0x12345678#32) = 0x312345678#34 := by decide

/-! ### One step of each kind (95_test_vectors.md section 3) -/

/-- A reset block whose last response was `d`, `e`, with the lines of a program to come. -/
def blockWith (v : Bool) (d : Word32) (e : Bool) (p : List Line) : State :=
  State.withProgram { State.reset with rspValid := v, rspData := d, rspErr := e } p

/-- P1, cycle 2. -/
theorem test_step_narrow :
    step (blockWith true 0x00003C00#32 false [.request (.narrow 0x477FF000#32)]) = .next (blockWith true 0x00007C00#32 false []) := by
  rfl

/-- P3, cycle 3: the upper half is ignored, and the error of the response before is gone. -/
theorem test_step_widen :
    step (blockWith true 0x00000000#32 true [.request (.widen 0xDEAD#16 0x7E00#16)]) =
      .next (blockWith true 0x7FC00000#32 false []) := by
  rfl

/-- P2, cycle 3. -/
theorem test_step_qhalf :
    step (blockWith true 0x40490000#32 false [.request (.qhalf 0x40490FDB#32)]) = .next (blockWith true 0x40490000#32 false []) := by
  rfl

/-- P3, cycle 2. -/
theorem test_step_rsvd :
    step (blockWith true 0x0000FC00#32 false [.request (.rsvd 0x12345678#32)]) = .next (blockWith true 0x00000000#32 true []) := by
  rfl

/-- V-T2 and P1, cycle 3. -/
theorem test_step_idle :
    step (blockWith true 0x00007C00#32 false [.idle]) = .next (blockWith false 0x00007C00#32 false []) := by
  rfl

/-- V-T3 and P3, cycle 4: the request presented with the reset is dropped. -/
theorem test_step_reset_drops_request :
    step (blockWith true 0x7FC00000#32 false [.resetWith (.narrow 0x3F800000#32)]) = .next (blockWith false 0x00000000#32 false []) := by
  rfl

/-- V-T5: a request before the first reset edge leaves no register at a value of the request's. -/
theorem test_step_before_reset :
    step (State.powerOn [Line.inputs (.request (.rsvd 0x0#32))]) =
      .next { State.powerOn [] with
        rspValid := Config.powerOnValid 1, rspData := Config.powerOnData 1, rspErr := Config.powerOnErr 1, draws := 2 } := by
  rfl

/-- I7: an accepted request whose operand is not driven is outside the spec. -/
theorem test_step_refuses_undriven_operand :
    step { State.reset with inputs := [{ rst := some false, reqValid := some true, reqOp := some 0b00#2, reqA := none }] } =
      .refused .unsteadyInput := by
  rfl

/-- The word a host places is the next thing run. -/
theorem test_step_of_placed_word :
    step (State.reset.withFetchWord 40 0x100003C00) = .next { State.reset with rspValid := true, rspData := 0x3F800000#32 } := by
  rfl

/-! ### Values of patterns (30_encoding.md R44) -/

theorem test_classes :
    [0x00000000#32, 0x807FFFFF#32, 0x00800000#32, 0xFF800000#32, 0x7F800001#32].map class32 =
      [.zero, .subnormal, .normal, .infinity, .nan] := by rfl

/-- "binary16 `0x7BFF` = 65504 is the largest finite value, `0x0400` = 2^−14 the smallest normal, `0x0001` = 2^−24 the smallest
subnormal" (R44). -/
theorem test_value16_landmarks :
    value16 0x7BFF#16 = .finite 65504 ∧ value16 0x0400#16 = .finite (1 / 2 ^ 14) ∧ value16 0x0001#16 = .finite (1 / 2 ^ 24) :=
  ⟨(value16_of_fields (s := 0) (e := 30) (m := 0x3FF) rfl rfl rfl (by decide)).trans (by norm_num [significand]),
   (value16_of_fields (s := 0) (e := 1) (m := 0x0) rfl rfl rfl (by decide)).trans (by norm_num [significand, zpow_neg]),
   (value16_of_fields (s := 0) (e := 0) (m := 0x1) rfl rfl rfl (by decide)).trans (by norm_num [significand, zpow_neg])⟩

/-- The operands at the boundary 65520 and around it (R71). -/
theorem value_65520 : value32 0x477FF000#32 = .finite 65520 :=
  (value32_of_fields (s := 0) (e := 142) (m := 0x7FF000) rfl rfl rfl (by decide)).trans (by norm_num [significand, zpow_neg])
theorem value_neg65520 : value32 0xC77FF000#32 = .finite (-65520) :=
  (value32_of_fields (s := 1) (e := 142) (m := 0x7FF000) rfl rfl rfl (by decide)).trans (by norm_num [significand, zpow_neg])
theorem value_65504 : value32 0x477FE000#32 = .finite 65504 :=
  (value32_of_fields (s := 0) (e := 142) (m := 0x7FE000) rfl rfl rfl (by decide)).trans (by norm_num [significand, zpow_neg])
theorem value_neg65504 : value32 0xC77FE000#32 = .finite (-65504) :=
  (value32_of_fields (s := 1) (e := 142) (m := 0x7FE000) rfl rfl rfl (by decide)).trans (by norm_num [significand, zpow_neg])
/-- 65536, the first operand of R58. -/
theorem value_2_pow_16 : value32 0x47800000#32 = .finite (2 ^ 16) :=
  (value32_of_fields (s := 0) (e := 143) (m := 0x0) rfl rfl rfl (by decide)).trans (by norm_num [significand, zpow_neg])
/-- 2^−14, the first operand of R62. -/
theorem value_2_pow_neg14 : value32 0x38800000#32 = .finite (1 / 2 ^ 14) :=
  (value32_of_fields (s := 0) (e := 113) (m := 0x0) rfl rfl rfl (by decide)).trans (by norm_num [significand, zpow_neg])
/-- 1023.5 × 2^−24 (V-N25). -/
theorem value_carry : value32 0x387FE000#32 = .finite (2047 / 2 ^ 25) :=
  (value32_of_fields (s := 0) (e := 112) (m := 0x7FE000) rfl rfl rfl (by decide)).trans (by norm_num [significand, zpow_neg])
/-- 2^−25, the first operand of R60. -/
theorem value_2_pow_neg25 : value32 0x33000000#32 = .finite (1 / 2 ^ 25) :=
  (value32_of_fields (s := 0) (e := 102) (m := 0x0) rfl rfl rfl (by decide)).trans (by norm_num [significand, zpow_neg])
theorem value_zero : value32 0x00000000#32 = .finite 0 :=
  (value32_of_fields (s := 0) (e := 0) (m := 0x0) rfl rfl rfl (by decide)).trans (by norm_num [significand])

/-! ### Witnesses: states and operands that meet all hypotheses of a statement together -/

open Sys2Proof.Statement

/-- A reset block that has answered something, with the given cycles to come. -/
def blockWithInputs (cs : List Inputs) : State := { blockWith true 0x00003C00#32 false [] with inputs := cs }

theorem witness_ResetEdgeGivesResetValues :
    (blockWithInputs [Line.inputs (.resetWith (.narrow 0x3F800000#32))]).inputs = [Line.inputs (.resetWith (.narrow 0x3F800000#32))] ∧
    (Line.inputs (.resetWith (.narrow 0x3F800000#32))).rst = some true := ⟨rfl, rfl⟩

theorem witness_StateResetIsWhatAResetEdgeLeaves :
    (State.powerOn [Line.reset.inputs]).inputs = [Line.reset.inputs] ∧ Line.reset.inputs.rst = some true := ⟨rfl, rfl⟩

/-- One for each branch of R15. -/
theorem witness_EdgeFollowsStepRule : ∀ rst valid : Bool,
    (blockWithInputs [{ rst := some rst, reqValid := some valid, reqOp := some 0b11#2, reqA := some 0x0#32 }]).afterReset = true ∧
    (blockWithInputs [{ rst := some rst, reqValid := some valid, reqOp := some 0b11#2, reqA := some 0x0#32 }]).inputs =
      { rst := some rst, reqValid := some valid, reqOp := some 0b11#2, reqA := some 0x0#32 } :: [] := fun _ _ => ⟨rfl, rfl⟩

theorem witness_UnacceptedRequestHasNoEffect :
    ¬(Line.idle.inputs.rst = some false ∧ Line.idle.inputs.reqValid = some true) ∧
    ¬((Line.inputs (.resetWith (.rsvd 0x0#32))).rst = some false ∧ (Line.inputs (.resetWith (.rsvd 0x0#32))).reqValid = some true) := by
  decide

theorem witness_IdleCyclesHoldTheResponse :
    (blockWithInputs (requestInputs (encode (.rsvd 0x0#32)) :: ([Line.idle.inputs] ++ []))).afterReset = true ∧
    (∀ c ∈ [Line.idle.inputs], isIdle c) ∧
    (blockWithInputs (Line.reset.inputs :: ([Line.idle.inputs] ++ []))).inputs = Line.reset.inputs :: ([Line.idle.inputs] ++ []) ∧
    Line.reset.inputs.rst = some true := ⟨rfl, by simp [isIdle, Line.inputs], rfl, rfl⟩

/-- The one hypothesis of the four completion statements and of `ErrorBitExactlyForReserved`. -/
theorem witness_completion_statements : State.reset.afterReset = true ∧ (blockWithInputs []).afterReset = true := ⟨rfl, rfl⟩

theorem witness_OutputsAreDrawsBeforeFirstReset :
    (State.powerOn [Line.inputs (.request (.rsvd 0x0#32))]).afterReset = false ∧
    (Line.inputs (.request (.rsvd 0x0#32))).steady = true ∧ (Line.inputs (.request (.rsvd 0x0#32))).rst = some false ∧
    (State.powerOn [Line.idle.inputs]).afterReset = false ∧ Line.idle.inputs.steady = true ∧ Line.idle.inputs.rst = some false := by
  decide

theorem witness_StepRunsDecodedCommand :
    (blockWithInputs [{ rst := some false, reqValid := some true, reqOp := some 0b01#2, reqA := some 0xDEAD7E00#32 }]).inputs =
      { rst := some false, reqValid := some true, reqOp := some 0b01#2, reqA := some 0xDEAD7E00#32 } :: [] ∧
    decode (commandOf 0b01#2 0xDEAD7E00#32) = .widen 0xDEAD#16 0x7E00#16 ∧
    (Instr.widen 0xDEAD#16 0x7E00#16).wellFormed = true := ⟨rfl, by decide, rfl⟩

/-- The first and the last command word, in 34 bits and in whole bytes. -/
theorem witness_PlacedTableWordRunsNext :
    decodeTableWord 34 0x000000000 = some (.narrow 0x0#32) ∧ decodeTableWord 40 0x3FFFFFFFF = some (.rsvd 0xFFFFFFFF#32) := by decide

/-- `DecodeEncodeAgree`: a well-formed instruction of each kind is in `test_wellFormed_every_command`. -/
theorem witness_DecodeEncodeAgree : (Instr.widen 0xFFFF#16 0xFFFF#16).wellFormed = true := rfl

/-- Both cases, at operands whose ignored bits all differ. -/
theorem witness_IgnoredOperandBitsHaveNoEffect :
    (Line.inputs (.request (.widen 0x0#16 0x3C00#16))).reqOp = some 0b01#2 ∧
    (0x00003C00#32).extractLsb' 0 16 = (0xFFFF3C00#32).extractLsb' 0 16 ∧
    (Line.inputs (.request (.rsvd 0x0#32))).reqOp = some 0b11#2 := by decide

theorem witness_NarrowOfInfinity : exp32 0x7F800000#32 = 255 ∧ man32 0x7F800000#32 = 0 := ⟨rfl, rfl⟩

/-- A NaN whose fragment is zero, and one whose fragment is not. -/
theorem witness_NarrowOfNaN :
    (exp32 0x7F800001#32 = 255 ∧ man32 0x7F800001#32 ≠ 0 ∧ bitField 0x7F800001#32 22 13 = 0) ∧
    (exp32 0xFF802000#32 = 255 ∧ man32 0xFF802000#32 ≠ 0 ∧ bitField 0xFF802000#32 22 13 ≠ 0) := by decide

/-- The smallest and the largest exponent that overflow. -/
theorem witness_NarrowOverflowByExponent :
    value32 0x47800000#32 = .finite (2 ^ 16) ∧ rebias (exp32 0x47800000#32) ≥ 31 ∧ exp32 0x47800000#32 = 143 ∧
    (∃ x, value32 0x7F7FFFFF#32 = .finite x) ∧ rebias (exp32 0x7F7FFFFF#32) ≥ 31 ∧ exp32 0x7F7FFFFF#32 = 254 :=
  ⟨value_2_pow_16, by decide, rfl, ⟨_, value32_of_fields rfl rfl rfl (by decide)⟩, by decide, rfl⟩

/-- The smallest and the largest exponent that are flushed, and a finite binary16 value to compare with. -/
theorem witness_NarrowFlushesToSignedZero :
    value32 0x00000000#32 = .finite 0 ∧ rebias (exp32 0x00000000#32) < -10 ∧
    (∃ x, value32 0x32FFFFFF#32 = .finite x) ∧ rebias (exp32 0x32FFFFFF#32) < -10 ∧ exp32 0x32FFFFFF#32 = 101 ∧
    value16 0x0001#16 = .finite (1 / 2 ^ 24) :=
  ⟨value_zero, by decide, ⟨_, value32_of_fields rfl rfl rfl (by decide)⟩, by decide, rfl, test_value16_landmarks.2.2⟩

/-- The smallest and the largest exponent with a subnormal result. -/
theorem witness_NarrowSubnormalResult :
    value32 0x33000000#32 = .finite (1 / 2 ^ 25) ∧ exp32 0x33000000#32 = 102 ∧
    value32 0x387FE000#32 = .finite (2047 / 2 ^ 25) ∧ exp32 0x387FE000#32 = 112 := ⟨value_2_pow_neg25, rfl, value_carry, rfl⟩

/-- The smallest and the largest exponent with a normal result. -/
theorem witness_NarrowNormalResult :
    value32 0x38800000#32 = .finite (1 / 2 ^ 14) ∧ exp32 0x38800000#32 = 113 ∧
    value32 0x477FF000#32 = .finite 65520 ∧ exp32 0x477FF000#32 = 142 := ⟨value_2_pow_neg14, rfl, value_65520, rfl⟩

/-- Each clause at the lower end of its range. -/
theorem witness_NarrowRoundingCarry :
    (value32 0xC77FF000#32 = .finite (-65520) ∧ |(-65520 : ℚ)| ≥ 65520) ∧
    (value32 0x477FE000#32 = .finite 65504 ∧ (65504 : ℚ) ≤ |(65504 : ℚ)| ∧ |(65504 : ℚ)| < 65520) ∧
    (value32 0x387FE000#32 = .finite (2047 / 2 ^ 25) ∧ (2047 : ℚ) / 2 ^ 25 ≤ |(2047 / 2 ^ 25 : ℚ)| ∧
      |(2047 / 2 ^ 25 : ℚ)| < 1 / 2 ^ 14) :=
  ⟨⟨value_neg65520, by norm_num⟩, ⟨value_65504, by norm_num, by norm_num⟩, ⟨value_carry, by norm_num [abs_of_pos], by norm_num [abs_of_pos]⟩⟩

/-- Each clause: the two infinities, the two boundaries, and a tie with a binary16 value to compare with. -/
theorem witness_NarrowRoundsToNearestEven :
    value32 0x7F800000#32 = .posInf ∧ value32 0xFF800000#32 = .negInf ∧
    (value32 0x477FF000#32 = .finite 65520 ∧ (65520 : ℚ) ≥ 65520) ∧
    (value32 0xC77FF000#32 = .finite (-65520) ∧ (-65520 : ℚ) ≤ -65520) ∧
    (value32 0x33000000#32 = .finite (1 / 2 ^ 25) ∧ |(1 / 2 ^ 25 : ℚ)| < 65520 ∧ value16 0x0001#16 = .finite (1 / 2 ^ 24)) :=
  ⟨rfl, rfl, ⟨value_65520, le_refl _⟩, ⟨value_neg65520, le_refl _⟩,
   ⟨value_2_pow_neg25, by norm_num [abs_of_pos], test_value16_landmarks.2.2⟩⟩

theorem witness_NarrowIsMonotonic :
    (value32 0xFF800000#32).le (value32 0x00000000#32) ∧ (value32 0x477FE000#32).le (value32 0x477FF000#32) := by
  refine ⟨?_, ?_⟩
  · rw [value_zero, show value32 0xFF800000#32 = .negInf from rfl]; trivial
  · rw [value_65504, value_65520]; norm_num [FloatValue.le]

theorem witness_NarrowErrorAtMostHalfUlp :
    value32 0x477FE000#32 = .finite 65504 ∧ value16 (narrow16 .setLsbIfZero 0x477FE000#32) = .finite 65504 :=
  ⟨value_65504, test_value16_landmarks.1⟩

/-- Each clause, the normals at both ends of the range of the exponent. -/
theorem witness_WidenZeroSpecialNormalFields :
    (exp16 0x8000#16 = 0 ∧ man16 0x8000#16 = 0) ∧ exp16 0x7C01#16 = 31 ∧ exp16 0x0400#16 = 1 ∧ exp16 0x7BFF#16 = 30 := by decide

/-- The smallest and the largest subnormal. -/
theorem witness_WidenRenormalisesSubnormals :
    (exp16 0x0001#16 = 0 ∧ 2 ^ 0 ≤ man16 0x0001#16 ∧ man16 0x0001#16 < 2 ^ (0 + 1)) ∧
    (exp16 0x83FF#16 = 0 ∧ 2 ^ 9 ≤ man16 0x83FF#16 ∧ man16 0x83FF#16 < 2 ^ (9 + 1)) := by decide

/-- Injectivity is about patterns with equal results; the other hypothesis-free clause needs no witness. -/
theorem witness_WidenIsExactAndInjective : widen32 0x8000#16 = widen32 0x8000#16 := rfl

theorem witness_NarrowUndoesWiden :
    class16 0xFC00#16 ≠ .nan ∧ (class16 0x7C01#16 = .nan ∧ (0x7C01#16).getLsbD 0 = true) ∧
    (class16 0xFE00#16 = .nan ∧ (0xFE00#16).getLsbD 9 = true) := by decide

theorem witness_QhalfOfNaN : class32 0xFF800001#32 = .nan := rfl

/-- Each clause at its boundary. -/
theorem witness_QhalfOverflowBoundary :
    value32 0x7F800000#32 = .posInf ∧ value32 0xFF800000#32 = .negInf ∧
    (value32 0x477FF000#32 = .finite 65520 ∧ (65520 : ℚ) ≥ 65520) ∧
    (value32 0xC77FF000#32 = .finite (-65520) ∧ (-65520 : ℚ) ≤ -65520) ∧
    (value32 0x477FE000#32 = .finite 65504 ∧ (65504 : ℚ) ≤ 65504 ∧ (65504 : ℚ) < 65520) ∧
    (value32 0xC77FE000#32 = .finite (-65504) ∧ (-65504 : ℚ) ≤ -65504 ∧ (-65520 : ℚ) < -65504) :=
  ⟨rfl, rfl, ⟨value_65520, le_refl _⟩, ⟨value_neg65520, le_refl _⟩, ⟨value_65504, le_refl _, by norm_num⟩,
   ⟨value_neg65504, le_refl _, by norm_num⟩⟩

/-- A safe state with a request, a reset with a request, and an idle cycle to come. -/
def safeBlock : State :=
  blockWithInputs [Line.inputs (.request (.narrow 0x3F800000#32)), Line.inputs (.resetWith (.rsvd 0x0#32)), Line.idle.inputs]

theorem witness_EachAcceptedRequestAnsweredOnceInOrder :
    safeBlock.safe = true ∧ safeBlock.inputs[0]? = some (Line.inputs (.request (.narrow 0x3F800000#32))) ∧
    (Line.inputs (.request (.narrow 0x3F800000#32))).accepts = true ∧
    (Line.inputs (.request (.narrow 0x3F800000#32))).reqOp = some 0b00#2 ∧
    (Line.inputs (.request (.narrow 0x3F800000#32))).reqA = some 0x3F800000#32 := ⟨rfl, rfl, rfl, by decide, by decide⟩

/-- The same request in cycle 0 of one run and in cycle 1 of another with another history. -/
theorem witness_ResponseDependsOnlyOnItsRequest :
    safeBlock.safe = true ∧
    (State.reset.withProgram [.request (.rsvd 0x0#32), .request (.narrow 0x3F800000#32)]).safe = true ∧
    (Line.inputs (.request (.narrow 0x3F800000#32))).accepts = true ∧
    safeBlock.inputs[0]? = some (Line.inputs (.request (.narrow 0x3F800000#32))) ∧
    (State.reset.withProgram [.request (.rsvd 0x0#32), .request (.narrow 0x3F800000#32)]).inputs[1]? =
      some (Line.inputs (.request (.narrow 0x3F800000#32))) := ⟨rfl, rfl, rfl, rfl, rfl⟩

theorem witness_ResetEndsAVisibleResponse :
    (blockWithInputs [requestInputs (encode (.rsvd 0x0#32)), Line.reset.inputs]).afterReset = true ∧
    Line.reset.inputs.rst = some true ∧
    (blockWithInputs [requestInputs (encode (.rsvd 0x0#32)), Line.reset.inputs]).inputs =
      [requestInputs (encode (.rsvd 0x0#32)), Line.reset.inputs] := ⟨rfl, rfl, rfl⟩

theorem witness_NarrowThenWidenEqualsQhalf :
    (blockWithInputs [requestInputs (encode (.narrow 0x40490FDB#32))]).afterReset = true ∧
    (blockWithInputs [requestInputs (encode (.narrow 0x40490FDB#32))]).inputs =
      requestInputs (encode (.narrow 0x40490FDB#32)) :: [] := ⟨rfl, rfl⟩

/-- From power-on, with one reset edge more than needed. -/
theorem witness_OneResetEdgeIsEnough :
    Line.reset.inputs.rst = some true ∧ (∀ c ∈ [Line.reset.inputs], c.rst = some true) ∧
    (State.powerOn (Line.reset.inputs :: ([Line.reset.inputs] ++ [requestInputs (encode (.rsvd 0x0#32))]))).inputs =
      Line.reset.inputs :: ([Line.reset.inputs] ++ requestInputs (encode (.rsvd 0x0#32)) :: []) := ⟨rfl, by simp [Line.inputs], rfl⟩

theorem witness_NoEdgeNoChange :
    (blockWithInputs []).inputs = [] ∧ Host.Core.run Sys2Proof.core 2 (blockWithInputs []) = .next (blockWithInputs []) := ⟨rfl, rfl⟩

/-- Both clauses. -/
theorem witness_StepStopsOnlyOnUnsteadyInput :
    Inputs.steady { rst := none, reqValid := none, reqOp := none, reqA := none } = false ∧ Line.idle.inputs.steady = true ∧
    (blockWithInputs [Line.idle.inputs]).inputs = Line.idle.inputs :: [] := ⟨rfl, rfl, rfl⟩

theorem witness_StepTakesOneCycle :
    step (blockWithInputs [Line.reset.inputs]) = .next (State.reset) ∧ (blockWithInputs [Line.reset.inputs]).afterReset = true :=
  ⟨rfl, rfl⟩

theorem witness_SafeRunNeverStops : safeBlock.safe = true := rfl

/-- A legal state of each kind: no error with a narrowed pattern, and an error with no data. -/
theorem witness_StepKeepsResponseLegal :
    (blockWithInputs [Line.reset.inputs]).responseLegal ∧ step (blockWithInputs [Line.reset.inputs]) = .next State.reset ∧
    (blockWith true 0x00000000#32 true []).responseLegal :=
  ⟨fun _ => ⟨fun h => absurd h (by decide), .inl (by decide)⟩, rfl, fun _ => ⟨fun _ => rfl, .inl (by decide)⟩⟩

/-- The spec's default of `NAN_FIX` (R5). -/
theorem test_nanFix_default : (default : NanFix) = .setLsbIfZero := rfl

end Sys2Proof.Machine
end

section
/-! PROOF. Reset, the step rule and the response registers (10_state.md R13, R15, R16, R23). -/

namespace Sys2Proof.Machine

open Sys2Proof.Statement

/-! ### What a command word is answered with -/

/-- The response of the decoded instruction is the table of R46 on the two fields of the word. -/
theorem answerOf_decode_commandOf (op : OpField) (a : Word32) :
    answerOf (decode (commandOf op a)) = execPair Config.nanFix op a := by
  simp only [decode, opOf_commandOf, operandOf_commandOf, execPair]
  split
  · simp only [answerOf, zeroExtend_eq_append]
  · split
    · rfl
    · split <;> rfl

/-! ### The three branches of R15, one step each -/

theorem step_of_reset {s : State} {c : Inputs} {rest : List Inputs} (hin : s.inputs = c :: rest) (hr : c.rst = some true) :
    step s = .next (State.resetEdge { s with inputs := rest }) := by
  rw [step_of_cons hin, edge_of_reset hr]

theorem step_of_idle {s : State} {c : Inputs} {rest : List Inputs} (hs : s.afterReset = true) (hin : s.inputs = c :: rest)
    (hc : isIdle c) : step s = .next { s with rspValid := false, inputs := rest } := by
  obtain ⟨hr, hv⟩ := hc
  rw [step_of_cons hin, edge_of_idle hr hv, State.idleEdge_of_afterReset (s := { s with inputs := rest }) hs]

theorem step_of_request {s : State} {op : OpField} {a : Word32} {rest : List Inputs} (hs : s.afterReset = true)
    (hin : s.inputs = { rst := some false, reqValid := some true, reqOp := some op, reqA := some a } :: rest) :
    step s = .next
      (answered { s with inputs := rest } (execPair Config.nanFix op a).1 (execPair Config.nanFix op a).2) := by
  rw [step_of_cons hin, edge_of_accept rfl rfl rfl rfl, exec_eq_respond, answerOf_decode_commandOf,
    State.respond_of_afterReset (s := { s with inputs := rest }) hs, answered]

/-! ### Ports that are not sampled -/

/-- R13: the fields of a request are sampled only where it is accepted. -/
theorem sample_of_not_accepting {c : Inputs} (h : ¬(c.rst = some false ∧ c.reqValid = some true)) (op' : Option OpField)
    (a' : Option Word32) : sample { c with reqOp := op', reqA := a' } = sample c := by
  obtain ⟨rst, valid, op, a⟩ := c
  match rst, valid with
  | none, _ => rfl
  | some true, _ => rfl
  | some false, none => rfl
  | some false, some false => rfl
  | some false, some true => exact absurd ⟨rfl, rfl⟩ h

/-! ### Idle cycles -/

/-- R16: idle cycles hold `rsp_data` and `rsp_err`, and the first of them clears `rsp_valid`. -/
theorem run_of_idles {idles rest : List Inputs} (hidle : ∀ c ∈ idles, isIdle c) {s : State} (hs : s.afterReset = true)
    (hin : s.inputs = idles ++ rest) :
    Host.Core.run Sys2Proof.core idles.length s = .next { s with rspValid := s.rspValid && idles.isEmpty, inputs := rest } := by
  induction idles generalizing s with
  | nil =>
    rw [List.nil_append] at hin
    subst hin
    simp only [List.length_nil, core_run_zero, List.isEmpty_nil, Bool.and_true]
  | cons c cs ih =>
    obtain ⟨hc, hcs⟩ := List.forall_mem_cons.1 hidle
    have hrun : Host.Core.run Sys2Proof.core cs.length { s with rspValid := false, inputs := cs ++ rest } =
        .next { s with rspValid := false, inputs := rest } := ih hcs hs rfl
    rw [List.isEmpty_cons, Bool.and_false]
    exact (core_run_succ (step_of_idle hs hin hc) cs.length).trans hrun

/-! ### The statements -/

/-- Settles O1: the reset branch of the step rule, from any state. -/
theorem resetEdgeGivesResetValues : Obligations.ResetEdgeGivesResetValues :=
  fun _ _ _ hin hr => step_of_reset hin hr

/-- Settles O3, one branch of R15 at a time. -/
theorem edgeFollowsStepRule : Obligations.EdgeFollowsStepRule := by
  intro s rst valid op a rest hs hin
  cases rst with
  | true =>
    rw [if_pos rfl, step_of_reset hin rfl, State.resetEdge, hs]
  | false =>
    rw [if_neg Bool.false_ne_true]
    cases valid with
    | true => rw [if_pos rfl, step_of_request hs hin, answered]
    | false => rw [if_neg Bool.false_ne_true, step_of_idle hs hin ⟨rfl, rfl⟩]

/-- Settles O4: a step reads the ports through `sample` only. -/
theorem unacceptedRequestHasNoEffect : Obligations.UnacceptedRequestHasNoEffect := by
  intro s c op' a' rest h
  rw [step_of_cons rfl, step_of_cons rfl, edge, edge, sample_of_not_accepting h]

/-- Settles O5: the first step is the response or the reset edge, and the idle cycles follow from its state. -/
theorem idleCyclesHoldTheResponse : Obligations.IdleCyclesHoldTheResponse := by
  constructor
  · intro s i idles rest hs hin hidle
    exact (core_run_succ (step_of_request hs hin) idles.length).trans (run_of_idles hidle hs rfl)
  · intro s c idles rest hin hr hidle
    exact (core_run_succ (step_of_reset hin hr) idles.length).trans (run_of_idles hidle rfl rfl)

end Sys2Proof.Machine
end

section
/-! PROOF. The observation of a run: one response for each accepted request, in order (20_memory.md R32). -/

namespace Sys2Proof.Machine

open Sys2Proof.Statement

/-! ### What a steady cycle is -/

/-- A cycle in which the host keeps R109 takes one of the three branches of R15. -/
theorem steady_cases {c : Inputs} (h : c.steady = true) :
    c.rst = some true ∨ isIdle c ∨
    ∃ op a, c = { rst := some false, reqValid := some true, reqOp := some op, reqA := some a } := by
  cases hs : sample c with
  | reset => exact .inl ((sample_eq_reset_iff c).1 hs)
  | idle => exact .inr (.inl ((sample_eq_idle_iff c).1 hs))
  | accept cmd =>
    obtain ⟨hr, hv, op, a, ho, ha, -⟩ := (sample_eq_accept_iff c cmd).1 hs
    refine .inr (.inr ⟨op, a, ?_⟩)
    rw [← hr, ← hv, ← ho, ← ha]
  | unsteady => exact absurd h (Bool.eq_false_iff.1 ((sample_eq_unsteady_iff c).1 hs))

theorem accepts_of_reset {c : Inputs} (h : c.rst = some true) : c.accepts = false := by
  simp [Inputs.accepts, h]

theorem accepts_of_idle {c : Inputs} (h : isIdle c) : c.accepts = false := by
  simp [Inputs.accepts, h.2]

/-! ### Safe states -/

theorem safe_iff (s : State) : s.safe = true ↔ s.afterReset = true ∧ ∀ c ∈ s.inputs, c.steady = true := by
  simp only [State.safe, State.hostSteady, Bool.and_eq_true, List.all_eq_true]

theorem safe_cons_iff {s : State} {c : Inputs} {rest : List Inputs} (hin : s.inputs = c :: rest) :
    s.safe = true ↔ s.afterReset = true ∧ c.steady = true ∧ ∀ c' ∈ rest, c'.steady = true := by
  rw [safe_iff, hin, List.forall_mem_cons]

/-! ### The outputs that answer a cycle -/

/-- The outputs after an edge are the ones R32 asks for: valid exactly when the cycle was accepted, and then with the data and error
bit of its own command (R46). -/
def Outputs.Answers (o : Outputs) (c : Inputs) : Prop :=
  o.rspValid = c.accepts ∧
    ∀ (op : OpField) (a : Word32), c.accepts = true → c.reqOp = some op → c.reqA = some a →
      (o.rspData, o.rspErr) = execPair Config.nanFix op a

/-- A cycle that was not accepted is answered by `rsp_valid = 0`, whatever the other ports show. -/
theorem Outputs.answer_of_not_accepted {o : Outputs} {c : Inputs} (hc : c.accepts = false) (ho : o.rspValid = false) :
    o.Answers c :=
  ⟨ho.trans hc.symm, fun _ _ h => absurd h (Bool.eq_false_iff.1 hc)⟩

theorem Outputs.answer_of_accepted (s : State) (op : OpField) (a : Word32) :
    (answered s (execPair Config.nanFix op a).1 (execPair Config.nanFix op a).2).outputs.Answers
      { rst := some false, reqValid := some true, reqOp := some op, reqA := some a } := by
  refine ⟨rfl, fun op' a' _ hop ha => ?_⟩
  cases hop
  cases ha
  rfl

/-- The edge of a safe state takes its cycle, answers it, and leaves a safe state. -/
theorem step_of_safe {s : State} {c : Inputs} {rest : List Inputs} (hs : s.safe = true) (hin : s.inputs = c :: rest) :
    ∃ t, step s = .next t ∧ t.inputs = rest ∧ t.safe = true ∧ t.outputs.Answers c := by
  obtain ⟨har, hc, hrest⟩ := (safe_cons_iff hin).1 hs
  obtain hr | hidle | ⟨op, a, rfl⟩ := steady_cases hc
  · exact ⟨_, step_of_reset hin hr, rfl, (safe_iff _).2 ⟨rfl, hrest⟩,
      Outputs.answer_of_not_accepted (accepts_of_reset hr) rfl⟩
  · exact ⟨_, step_of_idle har hin hidle, rfl, (safe_iff _).2 ⟨har, hrest⟩,
      Outputs.answer_of_not_accepted (accepts_of_idle hidle) rfl⟩
  · exact ⟨_, step_of_request har hin, rfl, (safe_iff _).2 ⟨har, hrest⟩,
      Outputs.answer_of_accepted { s with inputs := rest } op a⟩

/-! ### The observation of a run -/

theorem observation_of_nil {s : State} (hin : s.inputs = []) : s.observation = [] := by
  rw [State.observation, hin, List.length_nil, observe]

/-- The observation of a run whose first step takes its cycle goes on from that step. -/
theorem observation_of_step {s t : State} {c : Inputs} (hin : s.inputs = c :: t.inputs) (h : step s = .next t) :
    s.observation = t.outputs :: t.observation := by
  rw [State.observation, hin, List.length_cons, observe, h, State.observation]

/-- The outputs a safe run shows answer its cycles, one for one and in order. -/
theorem observation_answers_inputs {s : State} (hs : s.safe = true) :
    List.Forall₂ Outputs.Answers s.observation s.inputs := by
  induction hin : s.inputs generalizing s with
  | nil => rw [observation_of_nil hin]; exact .nil
  | cons c rest ih =>
    obtain ⟨t, hstep, rfl, ht, hanswer⟩ := step_of_safe hs hin
    rw [observation_of_step hin hstep]
    exact .cons hanswer (ih ht rfl)

/-- In a safe run, listed cycle `k` has an entry `k` in the observation, and that entry answers it. -/
theorem observation_getElem?_answers {s : State} (hs : s.safe = true) {k : Nat} {c : Inputs} (hk : s.inputs[k]? = some c) :
    ∃ o, s.observation[k]? = some o ∧ o.Answers c := by
  have hall := observation_answers_inputs hs
  obtain ⟨hlt, rfl⟩ := List.getElem?_eq_some_iff.1 hk
  have hlt' : k < s.observation.length := hall.length_eq ▸ hlt
  exact ⟨s.observation[k], List.getElem?_eq_getElem hlt', hall.get hlt' hlt⟩

/-! ### The statement -/

/-- Settles O37: the observation answers the cycles one for one, by induction on the cycles to come. -/
theorem eachAcceptedRequestAnsweredOnceInOrder : Obligations.EachAcceptedRequestAnsweredOnceInOrder :=
  fun _ hs => ⟨(observation_answers_inputs hs).length_eq, fun _ _ hk => observation_getElem?_answers hs hk⟩

end Sys2Proof.Machine
end

section
/-! PROOF. NARROW, path by path (40_narrow.md R54 to R62), and its completion (R67). -/

namespace Sys2Proof.Machine

open Sys2Proof.Statement

/-! ### Fields inside the mantissa -/

/-- A field of the low `p` bits of a pattern, in arithmetic (R7). -/
theorem bitField_eq_of_lt {n : Nat} (v : BitVec n) {hi lo p : Nat} (hlo : lo ≤ p) (hhi : hi < p) :
    bitField v hi lo = v.toNat % 2 ^ p / 2 ^ lo % 2 ^ (hi + 1 - lo) := by
  obtain ⟨d, rfl⟩ := Nat.exists_eq_add_of_le hlo
  rw [bitField, Nat.shiftRight_eq_div_pow, pow_add, Nat.mod_mul_right_div_self,
    Nat.mod_mod_of_dvd _ (Nat.pow_dvd_pow 2 (by omega))]

theorem bitField_eq_man32 (a : Word32) {hi lo : Nat} (hlo : lo ≤ 23) (hhi : hi < 23) :
    bitField a hi lo = man32 a / 2 ^ lo % 2 ^ (hi + 1 - lo) := by
  rw [bitField_eq_of_lt a hlo hhi, man32_eq]

theorem bitField_eq_man16 (h : Word16) {hi lo : Nat} (hlo : lo ≤ 10) (hhi : hi < 10) :
    bitField h hi lo = man16 h / 2 ^ lo % 2 ^ (hi + 1 - lo) := by
  rw [bitField_eq_of_lt h hlo hhi, man16_eq]

/-- The fragment `a[22:13]` is what is left of the mantissa when 13 bits are discarded (R55, R62). -/
theorem fragment_eq (a : Word32) : bitField a 22 13 = man32 a / 2 ^ 13 := by
  have := man32_lt a
  rw [bitField_eq_man32 a (by omega) (by omega)]; omega

/-- `OR_LSB` keeps `a[22:14]`, the fragment without its lowest bit (R56). -/
theorem fragment_upper (a : Word32) : bitField a 22 14 = bitField a 22 13 / 2 := by
  rw [fragment_eq, bitField_eq_man32 a (by omega) (by omega)]
  have := man32_lt a
  omega

/-- `OR_QUIET` keeps `a[21:13]`, the fragment without its highest bit (R56). -/
theorem fragment_lower (a : Word32) : bitField a 21 13 = bitField a 22 13 % 2 ^ 9 := by
  rw [fragment_eq, bitField_eq_man32 a (by omega) (by omega)]

theorem fragment_lt (a : Word32) : bitField a 22 13 < 2 ^ 10 := Nat.mod_lt _ (by omega)

/-- The round bit of the normal path is `a[12]` (R62). -/
theorem roundBit_man32 (a : Word32) : roundBit (man32 a) 13 = bitField a 12 12 := by
  rw [roundBit_eq, bitField_eq_man32 a (by omega) (by omega), Nat.add_sub_cancel_left, pow_one]

/-- Sticky of the normal path is set when `a[11:0]` is not zero (R62). -/
theorem sticky_man32_eq_one_iff (a : Word32) : sticky (man32 a) 13 = 1 ↔ bitField a 11 0 ≠ 0 := by
  rw [sticky_eq, bitField_eq_man32 a (by omega) (by omega), pow_zero, Nat.div_one]
  split <;> simp_all

/-! ### The forced fragment -/

/-- `OR_LSB` sets bit 0 and leaves the bits above it (R56). -/
theorem fixNan_orLsb_parts (f : Nat) : fixNan .orLsb f / 2 ^ 1 = f / 2 ∧ fixNan .orLsb f % 2 = 1 := by
  rw [fixNan, Nat.or_div_two_pow]
  exact ⟨by simp, by simp⟩

/-- `OR_QUIET` sets bit 9 and leaves the bits below it (R56). -/
theorem fixNan_orQuiet_parts (f : Nat) : fixNan .orQuiet f % 2 ^ 9 = f % 2 ^ 9 ∧ fixNan .orQuiet f / 2 ^ 9 % 2 = 1 := by
  rw [fixNan, Nat.or_mod_two_pow, Nat.or_div_two_pow]
  exact ⟨by simp, by simp⟩

/-! ### The exponent of a real value -/

/-- The magnitude of a value in the form of R44: the sign drops out. -/
theorem abs_sign_mul_scaled (s n : Nat) (k : ℤ) : |(-1) ^ s * (n : ℚ) * (2 : ℚ) ^ k| = n * (2 : ℚ) ^ k := by
  rw [abs_mul, abs_mul, abs_pow, abs_neg, abs_one, one_pow, one_mul, Nat.abs_cast, abs_of_pos (by positivity)]

/-- What an operand with a real value shows of it: the exponent field, and the magnitude (R44). -/
theorem abs_of_value32 {a : Word32} {x : ℚ} (hx : value32 a = .finite x) :
    exp32 a ≠ 255 ∧ |x| = (significand 23 (exp32 a) (man32 a) : ℚ) * (2 : ℚ) ^ ((max (exp32 a) 1 : ℕ) - 150 : ℤ) := by
  obtain ⟨hfin, rfl⟩ := (value32_eq_finite_iff a x).1 hx
  exact ⟨hfin, abs_sign_mul_scaled ..⟩

theorem significand32_lt (e : Nat) {m : Nat} (hm : m < 2 ^ 23) : significand 23 e m < 2 ^ 24 := by
  unfold significand; split <;> omega

theorem two_pow_le_significand32 {e : Nat} (he : e ≠ 0) (m : Nat) : 2 ^ 23 ≤ significand 23 e m := by
  rw [significand, if_neg he]; omega

/-- Magnitudes from `2^(e−127)` are those of the exponent fields from `e`, for `e` above the smallest exponent of a normal (R44). -/
theorem le_abs_iff_le_exp32 {a : Word32} {x : ℚ} (hx : value32 a = .finite x) {e : Nat} (he : 2 ≤ e) {bound : ℚ}
    (hbound : bound = (2 : ℚ) ^ ((e : ℤ) - 127)) : bound ≤ |x| ↔ e ≤ exp32 a := by
  obtain ⟨-, habs⟩ := abs_of_value32 hx
  have hpos : (0 : ℚ) < 2 ^ ((max (exp32 a) 1 : ℕ) - 150 : ℤ) := by positivity
  rw [hbound, habs]
  constructor
  · intro hle
    by_contra hlt
    have hsig : (significand 23 (exp32 a) (man32 a) : ℚ) < 2 ^ (24 : ℤ) := by
      exact_mod_cast significand32_lt (exp32 a) (man32_lt a)
    refine absurd hle (not_le.2 ?_)
    calc _ < (2 : ℚ) ^ (24 : ℤ) * 2 ^ ((max (exp32 a) 1 : ℕ) - 150 : ℤ) := mul_lt_mul_of_pos_right hsig hpos
      _ = 2 ^ (24 + ((max (exp32 a) 1 : ℕ) - 150 : ℤ)) := (zpow_add₀ two_ne_zero _ _).symm
      _ ≤ 2 ^ ((e : ℤ) - 127) := zpow_le_zpow_right₀ one_le_two (by omega)
  · intro hle
    have hsig : (2 : ℚ) ^ (23 : ℤ) ≤ significand 23 (exp32 a) (man32 a) := by
      exact_mod_cast two_pow_le_significand32 (by omega) (man32 a)
    calc (2 : ℚ) ^ ((e : ℤ) - 127) ≤ 2 ^ (23 + ((max (exp32 a) 1 : ℕ) - 150 : ℤ)) :=
          zpow_le_zpow_right₀ one_le_two (by omega)
      _ = 2 ^ (23 : ℤ) * 2 ^ ((max (exp32 a) 1 : ℕ) - 150 : ℤ) := zpow_add₀ two_ne_zero _ _
      _ ≤ _ := mul_le_mul_of_nonneg_right hsig hpos.le

/-- The bounds `2^16`, `2^−14` and `2^−25` of R58, R59 and R62, as exponent fields. -/
theorem le_exp32_iff_le_abs {a : Word32} {x : ℚ} (hx : value32 a = .finite x) :
    (143 ≤ exp32 a ↔ 2 ^ 16 ≤ |x|) ∧ (113 ≤ exp32 a ↔ 1 / 2 ^ 14 ≤ |x|) ∧ (102 ≤ exp32 a ↔ 1 / 2 ^ 25 ≤ |x|) :=
  ⟨(le_abs_iff_le_exp32 hx (by omega) (by norm_num)).symm, (le_abs_iff_le_exp32 hx (by omega) (by norm_num)).symm,
   (le_abs_iff_le_exp32 hx (by omega) (by norm_num)).symm⟩

/-! ### The result of each path -/

/-- Exponent 255: an infinity or a NaN (R54, R55). -/
theorem narrow16_of_special (fix : NanFix) {a : Word32} (he : exp32 a = 255) :
    narrow16 fix a = pack16 (sign32 a) (narrowSpecial fix (man32 a)) := by
  rw [narrow16, narrowMagnitude, if_pos he]

theorem narrow16_of_infinity (fix : NanFix) {a : Word32} (he : exp32 a = 255) (hm : man32 a = 0) :
    narrow16 fix a = pack16 (sign32 a) 0x7C00 := by
  rw [narrow16_of_special fix he, narrowSpecial, if_pos hm]

/-- The fields of a narrowed NaN: all ones, and the forced fragment (R55, R56). -/
theorem narrow16_fields_of_nan (fix : NanFix) {a : Word32} (he : exp32 a = 255) (hm : man32 a ≠ 0) :
    exp16 (narrow16 fix a) = 31 ∧ man16 (narrow16 fix a) = fixNan fix (bitField a 22 13) := by
  obtain ⟨-, hexp, hman⟩ := narrow16_fields fix a
  have hlt := (fixNan_bounds fix (fragment_lt a)).2
  rw [narrowMagnitude, if_pos he, narrowSpecial_eq fix (man32_lt a), if_neg hm, ← fragment_eq] at hexp hman
  omega

theorem narrow16_of_overflow (fix : NanFix) {a : Word32} (hfin : exp32 a ≠ 255) (h : rebias (exp32 a) ≥ 31) :
    narrow16 fix a = pack16 (sign32 a) 0x7C00 := by
  rw [narrow16, narrowMagnitude, if_neg hfin, if_pos h]

theorem narrow16_of_flush (fix : NanFix) {a : Word32} (hfin : exp32 a ≠ 255) (h : rebias (exp32 a) < -10) :
    narrow16 fix a = pack16 (sign32 a) 0 := by
  rw [narrow16, narrowMagnitude, if_neg hfin, if_neg (by omega), if_pos h]

theorem narrow16_of_normal (fix : NanFix) {a : Word32} (hlo : 113 ≤ exp32 a) (hhi : exp32 a ≤ 142) :
    narrow16 fix a = pack16 (sign32 a) (narrowNormal (rebias (exp32 a)) (man32 a)) := by
  have hreb : 1 ≤ rebias (exp32 a) ∧ rebias (exp32 a) ≤ 30 := by unfold rebias; omega
  rw [narrow16, narrowMagnitude, if_neg (by omega), if_neg (by omega), if_neg (by omega), if_neg (by omega)]

/-- The magnitude of a normal result, through the fields of the operand (R62). -/
theorem narrowNormal_eq_round {a : Word32} (hlo : 113 ≤ exp32 a) {t : Nat}
    (ht : t = (exp32 a - 112) * 2 ^ 10 + bitField a 22 13) :
    narrowNormal (rebias (exp32 a)) (man32 a) =
      if bitField a 12 12 = 1 ∧ (bitField a 11 0 ≠ 0 ∨ t % 2 = 1) then t + 1 else t := by
  have hreb : (rebias (exp32 a)).toNat = exp32 a - 112 := by unfold rebias; omega
  rw [narrowNormal_eq _ (man32_lt a), roundEven_eq (roundBit_lt _ _) (sticky_lt _ _), hreb, ← fragment_eq, ← ht,
    roundBit_man32]
  simp only [sticky_man32_eq_one_iff]

/-! ### Zero as the nearest binary16 value -/

/-- No binary16 value lies strictly between zero and the smallest subnormal, `2^−24` (R44). -/
theorem value16_eq_zero_or_le_abs {h : Word16} {z : ℚ} (hz : value16 h = .finite z) : z = 0 ∨ 1 / 2 ^ 24 ≤ |z| := by
  obtain ⟨-, rfl⟩ := (value16_eq_finite_iff h z).1 hz
  rcases Nat.eq_zero_or_pos (significand 10 (exp16 h) (man16 h)) with hsig | hsig
  · exact .inl (by rw [hsig]; simp)
  · right
    have hone : (1 : ℚ) ≤ significand 10 (exp16 h) (man16 h) := by exact_mod_cast hsig
    rw [abs_sign_mul_scaled]
    calc (1 / 2 ^ 24 : ℚ) = 2 ^ (-24 : ℤ) := by norm_num
      _ ≤ 2 ^ ((max (exp16 h) 1 : ℕ) - 25 : ℤ) := zpow_le_zpow_right₀ one_le_two (by omega)
      _ ≤ _ := le_mul_of_one_le_left (by positivity) hone

/-- Below `2^−25`, half the smallest subnormal, zero is as near as any binary16 value (R59). -/
theorem abs_le_abs_sub_of_small {x : ℚ} (hx : |x| < 1 / 2 ^ 25) {h : Word16} {z : ℚ} (hz : value16 h = .finite z) :
    |x| ≤ |z - x| := by
  rcases value16_eq_zero_or_le_abs hz with rfl | hle
  · rw [zero_sub, abs_neg]
  · have htri : |z| - |x| ≤ |z - x| := abs_sub_abs_le_abs_sub z x
    have hhalf : (1 / 2 ^ 24 : ℚ) = 1 / 2 ^ 25 + 1 / 2 ^ 25 := by norm_num
    linarith

/-! ### The statements -/

/-- Settles O19: the fields of a narrowed NaN, and what each `NAN_FIX` does to the fragment. -/
theorem narrowOfNaN : Obligations.NarrowOfNaN := by
  intro a he hm
  have hman := fun fix => (narrow16_fields_of_nan fix he hm).2
  refine ⟨fun fix => ?_, hman .setLsbIfZero, hman .orLsb, ?_, ?_, hman .orQuiet, ?_, ?_⟩
  · have hexp := (narrow16_fields_of_nan fix he hm).1
    have hne : man16 (narrow16 fix a) ≠ 0 := by
      rw [hman fix]; exact (fixNan_bounds fix (fragment_lt a)).1.ne'
    exact ⟨(binary16.classify_cases _ _).1.2 ⟨by omega, hexp, hne⟩, hne, (narrow16_fields fix a).1⟩
  · rw [bitField_eq_man16 _ (by omega) (by omega), hman .orLsb, (fixNan_orLsb_parts _).1, fragment_upper]
    have := fragment_lt a
    omega
  · rw [bitField_eq_man16 _ (by omega) (by omega), hman .orLsb, pow_zero, Nat.div_one]
    exact (fixNan_orLsb_parts _).2
  · rw [bitField_eq_man16 _ (by omega) (by omega), hman .orQuiet, pow_zero, Nat.div_one, fragment_lower]
    exact (fixNan_orQuiet_parts _).1
  · rw [bitField_eq_man16 _ (by omega) (by omega), hman .orQuiet]
    exact (fixNan_orQuiet_parts _).2

/-- Settles O20: from exponent field 143, which is from `2^16`, the overflow path. -/
theorem narrowOverflowByExponent : Obligations.NarrowOverflowByExponent := by
  refine ⟨fun fix a x hx => ?_, fun fix => narrow16_of_overflow fix (a := 0x47800000#32) (by decide) (by decide)⟩
  obtain ⟨hfin, -⟩ := abs_of_value32 hx
  obtain ⟨hover, -, -⟩ := le_exp32_iff_le_abs hx
  have hlt := exp32_lt a
  have hreb : rebias (exp32 a) ≥ 31 ↔ 143 ≤ exp32 a := by unfold rebias; omega
  exact ⟨hreb.trans (by omega), hreb.trans hover, narrow16_of_overflow fix hfin⟩

/-- Settles O21: up to exponent field 101, which is below `2^−25`, the flush path, and zero is then a nearest value. -/
theorem narrowFlushesToSignedZero : Obligations.NarrowFlushesToSignedZero := by
  refine ⟨fun fix a x hx => ?_, ?_, fun fix => by cases fix <;> rfl⟩
  · obtain ⟨hfin, -⟩ := abs_of_value32 hx
    obtain ⟨-, -, hflush⟩ := le_exp32_iff_le_abs hx
    have hreb : rebias (exp32 a) < -10 ↔ exp32 a ≤ 101 := by unfold rebias; omega
    have hsmall : rebias (exp32 a) < -10 ↔ |x| < 1 / 2 ^ 25 := by
      rw [hreb, ← not_le, ← hflush]; omega
    refine ⟨hreb, hsmall, fun h => ⟨?_, fun _ _ => abs_le_abs_sub_of_small (hsmall.1 h)⟩⟩
    rw [narrow16_of_flush fix hfin h]
    obtain hs | hs : sign32 a = 0 ∨ sign32 a = 1 := by have := sign32_lt a; omega
    · rw [hs]; rfl
    · rw [hs]; rfl
  · exact (value32_of_fields (s := 0) (e := 102) (m := 1) rfl rfl rfl (by decide)).trans
      (by norm_num [significand, zpow_neg])

/-- Settles O23: exponent fields 113 to 142, which is from `2^−14` to below `2^16`, the normal path. -/
theorem narrowNormalResult : Obligations.NarrowNormalResult := by
  intro fix a x hx
  obtain ⟨hover, hnormal, -⟩ := le_exp32_iff_le_abs hx
  have hreb : (1 ≤ rebias (exp32 a) ∧ rebias (exp32 a) ≤ 30) ↔ (113 ≤ exp32 a ∧ exp32 a ≤ 142) := by
    unfold rebias; omega
  refine ⟨hreb, ?_, fun hlo hhi => ?_⟩
  · rw [hreb, ← hnormal, ← not_le, ← hover]; omega
  · obtain ⟨h1, h30⟩ := hreb.2 ⟨hlo, hhi⟩
    obtain ⟨hmin, hmax⟩ := narrowNormal_bounds h1 h30 (man32_lt a)
    have hfrag := fragment_lt a
    exact ⟨_, _, rfl, by omega, by omega, narrowNormal_eq_round hlo rfl, hmin, hmax, narrow16_of_normal fix hlo hhi⟩

/-- Settles O6: the response of NARROW, and `respond` after the first reset. -/
theorem narrowCompletesWithZeroExtendedResult : Obligations.NarrowCompletesWithZeroExtendedResult := by
  intro a s hs
  rw [exec_eq_respond, answerOf, State.respond_of_afterReset hs, zeroExtend_eq_append, answered]

/-- Settles O18: the infinity path, and its two examples evaluated. -/
theorem narrowOfInfinity : Obligations.NarrowOfInfinity :=
  fun fix => ⟨fun _ => narrow16_of_infinity fix, narrow16_of_infinity fix rfl rfl, narrow16_of_infinity fix rfl rfl⟩

end Sys2Proof.Machine
end

section
/-! PROOF. WIDEN, path by path (41_widen.md R74, R76, R77), and its completion (R80). -/

namespace Sys2Proof.Machine

open Sys2Proof.Statement

/-- A widened pattern whose magnitude is an exponent field over a mantissa has exactly those two fields (R79). -/
theorem widen32_fields_of_magnitude {h : Word16} {e m : Nat} (hm : m < 2 ^ 23)
    (hmag : widenMagnitude (exp16 h) (man16 h) = e * 2 ^ 23 + m) :
    sign32 (widen32 h) = sign16 h ∧ exp32 (widen32 h) = e ∧ man32 (widen32 h) = m := by
  obtain ⟨hsign, hexp, hman⟩ := widen32_fields h
  rw [hmag] at hexp hman
  exact ⟨hsign, by omega, by omega⟩

/-- The mantissa moved up by 13 bits is a binary32 mantissa (R76, R77). -/
theorem man16_mul_lt (h : Word16) : man16 h * 2 ^ 13 < 2 ^ 23 := by
  have := man16_lt h
  omega

/-- Zero keeps its sign (R74). -/
theorem widen32_fields_of_zero {h : Word16} (he : exp16 h = 0) (hm : man16 h = 0) :
    sign32 (widen32 h) = sign16 h ∧ exp32 (widen32 h) = 0 ∧ man32 (widen32 h) = 0 := by
  refine widen32_fields_of_magnitude (by omega) ?_
  rw [widenMagnitude_eq _ (man16_lt h), if_neg (by omega), if_pos he, if_pos hm, Nat.zero_mul]

/-- Exponent 31: an infinity or a NaN, with its payload (R76). -/
theorem widen32_fields_of_special {h : Word16} (he : exp16 h = 31) :
    sign32 (widen32 h) = sign16 h ∧ exp32 (widen32 h) = 255 ∧ man32 (widen32 h) = man16 h * 2 ^ 13 := by
  refine widen32_fields_of_magnitude (man16_mul_lt h) ?_
  rw [widenMagnitude_eq _ (man16_lt h), if_pos he]

/-- Exponent 1 to 30: the exponent is rebiased by `127 − 15 = 112` (R77). -/
theorem widen32_fields_of_normal {h : Word16} (hlo : 1 ≤ exp16 h) (hhi : exp16 h ≤ 30) :
    sign32 (widen32 h) = sign16 h ∧ exp32 (widen32 h) = exp16 h + 112 ∧ man32 (widen32 h) = man16 h * 2 ^ 13 := by
  refine widen32_fields_of_magnitude (man16_mul_lt h) ?_
  rw [widenMagnitude_eq _ (man16_lt h), if_neg (by omega), if_neg (by omega)]

/-- Settles O30: the zero, special and normal paths, and the examples of the three rules evaluated. -/
theorem widenZeroSpecialNormalFields : Obligations.WidenZeroSpecialNormalFields :=
  ⟨fun _ => widen32_fields_of_zero, fun _ => widen32_fields_of_special, fun _ => widen32_fields_of_normal,
   rfl, rfl, rfl, rfl, rfl, rfl, rfl, rfl, rfl⟩

/-- Settles O7: the response of WIDEN, and `respond` after the first reset. -/
theorem widenCompletesIgnoringUpperHalf : Obligations.WidenCompletesIgnoringUpperHalf := by
  intro aHi h s hs
  rw [exec_eq_respond, answerOf, State.respond_of_afterReset hs, answered]

end Sys2Proof.Machine
end

section
/-! PROOF. QHALF's completion (42_quantize.md R81, R88). -/

namespace Sys2Proof.Machine

open Sys2Proof.Statement

/-- Settles O8: the response of QHALF, and `respond` after the first reset. -/
theorem qhalfCompletesWithWidenedNarrowing : Obligations.QhalfCompletesWithWidenedNarrowing := by
  intro a s hs
  rw [exec_eq_respond, answerOf, State.respond_of_afterReset hs, qhalf, answered]

end Sys2Proof.Machine
end

section
/-! PROOF. RSVD's completion (60_exceptions.md R89). -/

namespace Sys2Proof.Machine

open Sys2Proof.Statement

/-- Settles O9: the response of RSVD, and `respond` after the first reset. -/
theorem reservedCompletesWithError : Obligations.ReservedCompletesWithError := by
  intro a s hs
  rw [exec_eq_respond, answerOf, State.respond_of_afterReset hs, answered]

end Sys2Proof.Machine
end

section
/-! PROOF. The decoder and the encoder (30_encoding.md R38 to R40, R50), and the step that runs a decoded command (R46). -/

namespace Sys2Proof

open Sys2Proof.Laws

/-! ### The round trip -/

/-- The op field that decoding reads is the one that encoding writes (R39). -/
theorem opField_decode (cmd : Command) : EncodedOpField.opField (decode cmd) = opOf cmd := by
  have hop : opOf cmd = 0b00#2 ∨ opOf cmd = 0b01#2 ∨ opOf cmd = 0b10#2 ∨ opOf cmd = 0b11#2 := by
    generalize opOf cmd = op; revert op; decide
  rcases hop with h | h | h | h <;> simp [decode, h, EncodedOpField.opField]

/-- The operand that encoding writes is the one that decoding reads, its two halves put together (R40). -/
theorem operandOf_encode_decode (cmd : Command) : operandOf (encode (decode cmd)) = operandOf cmd := by
  unfold decode
  split
  · exact operandOf_commandOf ..
  · split
    · exact (operandOf_commandOf ..).trans (halves_append _)
    · split
      · exact operandOf_commandOf ..
      · exact operandOf_commandOf ..

/-- The op field of an encoded instruction is its own (R39). -/
theorem opOf_encode (i : Instr) : opOf (encode i) = EncodedOpField.opField i :=
  match i with
  | .narrow a => (EncodedOpField.narrow a).1
  | .widen aHi h => (EncodedOpField.widen aHi h).1
  | .qhalf a => (EncodedOpField.qhalf a).1
  | .rsvd a => (EncodedOpField.rsvd a).1

/-- A command word is determined by its two fields (R38). -/
theorem command_ext {c d : Command} (hop : opOf c = opOf d) (ha : operandOf c = operandOf d) : c = d := by
  rw [← commandOf_fields c, hop, ha, commandOf_fields]

/-- Encoding what was decoded gives the word back, so no bit is dropped. -/
theorem encode_decode (cmd : Command) : encode (decode cmd) = cmd :=
  command_ext ((opOf_encode _).trans (opField_decode cmd)) (operandOf_encode_decode cmd)

/-- Decoding what was encoded gives the instruction back, every operand bit included. -/
theorem decode_encode (i : Instr) : decode (encode i) = i := by
  cases i with
  | narrow a => simp [encode, decode]
  | widen aHi h => simp [encode, decode]
  | qhalf a => simp [encode, decode]
  | rsvd a => simp [encode, decode]

/-- Settles O15: the two round trips. -/
theorem decodeEncodeAgree : Obligations.DecodeEncodeAgree :=
  ⟨fun i _ => decode_encode i, encode_decode⟩

/-! ### The rows of the opcode table -/

/-- The match value of a row is its op field over an operand of zeros (R50). -/
theorem rowMatch_eq_commandOf (j : Instr) : rowMatch j = commandOf (EncodedOpField.opField j) 0#32 := by
  cases j with
  | narrow a => exact (by decide : 0x000000000#34 = commandOf 0b00#2 0#32)
  | widen aHi h => exact (by decide : 0x100000000#34 = commandOf 0b01#2 0#32)
  | qhalf a => exact (by decide : 0x200000000#34 = commandOf 0b10#2 0#32)
  | rsvd a => exact (by decide : 0x300000000#34 = commandOf 0b11#2 0#32)

/-- The mask of the table keeps the op field and clears the operand (R50). -/
theorem and_rowMask (cmd : Command) : cmd &&& rowMask = commandOf (opOf cmd) 0#32 := by
  have hmask : rowMask = commandOf 0b11#2 0#32 := by decide
  have hop : opOf cmd &&& 0b11#2 = opOf cmd := by generalize opOf cmd = op; revert op; decide
  conv_lhs => rw [← commandOf_fields cmd, hmask, commandOf, commandOf, BitVec.and_append, hop, BitVec.and_zero]
  rfl

/-- Two instructions have the same mnemonic exactly when they have the same op (R39, R49). -/
theorem mnemonic_eq_iff (i j : Instr) : i.mnemonic = j.mnemonic ↔ EncodedOpField.opField i = EncodedOpField.opField j := by
  cases i <;> cases j <;> simp [Instr.mnemonic, EncodedOpField.opField]

/-- Settles O16: masking leaves the op field, and the op field is what tells the mnemonics apart. -/
theorem exactlyOneRowMatches : Obligations.ExactlyOneRowMatches := by
  intro cmd j
  rw [and_rowMask, rowMatch_eq_commandOf, mnemonic_eq_iff, opField_decode]
  constructor
  · intro h
    rw [← opOf_commandOf (opOf cmd) 0#32, h, opOf_commandOf]
  · intro h
    rw [h]

/-- Settles O14: the four words evaluated. -/
theorem sampleWordsDecode : Obligations.SampleWordsDecode := by
  refine ⟨?_, ?_, ?_, ?_⟩ <;> decide

end Sys2Proof

namespace Sys2Proof.Machine

/-! ### The step that runs a command -/

/-- Settles O12: the accepting edge, on the decoded fields. -/
theorem stepRunsDecodedCommand : Obligations.StepRunsDecodedCommand := by
  rintro s i op a rest hin rfl -
  rw [step_of_cons hin, edge_of_accept rfl rfl rfl rfl]

/-- Settles O13: a table word that decodes is presented as its command word, which the next edge accepts. -/
theorem placedTableWordRunsNext : Obligations.PlacedTableWordRunsNext := by
  intro s nbits w i hdec
  obtain ⟨hfits, rfl⟩ := (decodeTableWord_eq_some_iff nbits w i).1 hdec
  rw [step_of_cons (State.withFetchWord_inputs s nbits w), tableInputs, if_pos hfits, edge_requestInputs]
  rfl

end Sys2Proof.Machine
end

section
/-! PROOF. One step and a run of steps: what every step keeps, when a step stops, and the time before the first reset (10_state.md
R15, R24; 60_exceptions.md R93, R102; 93_implementation_defined.md I7). -/

namespace Sys2Proof.Machine

open Sys2Proof.Statement

/-! ### The draw counter -/

theorem State.respond_draws {s : State} (h : s.afterReset = true) (d : Word32) (e : Bool) : (s.respond d e).draws = s.draws := by
  rw [State.respond_of_afterReset h]

theorem State.idleEdge_draws {s : State} (h : s.afterReset = true) : s.idleEdge.draws = s.draws := by
  rw [State.idleEdge_of_afterReset h]

/-- Settles O44, one branch of the step at a time. -/
theorem stepTakesOneCycle : Obligations.StepTakesOneCycle := by
  intro s t h
  obtain ⟨hin, rfl⟩ | ⟨c, rest, hin, hbranch⟩ := step_cases h
  · exact ⟨by rw [hin, List.tail_nil], fun hs => ⟨hs, rfl⟩⟩
  rw [hin, List.tail_cons]
  obtain ⟨-, rfl⟩ | ⟨op, a, -, rfl⟩ | ⟨-, -, rfl⟩ := hbranch
  · exact ⟨rfl, fun _ => ⟨rfl, rfl⟩⟩
  · exact ⟨State.respond_inputs .., fun hs =>
      ⟨(State.respond_afterReset ..).trans hs, State.respond_draws (s := { s with inputs := rest }) hs _ _⟩⟩
  · exact ⟨State.idleEdge_inputs _, fun hs =>
      ⟨(State.idleEdge_afterReset _).trans hs, State.idleEdge_draws (s := { s with inputs := rest }) hs⟩⟩

/-! ### The responses an instruction can give -/

/-- What `State.responseLegal` asks of the two response registers once the block has been reset (R45, R67, R75 to R77). -/
def LegalAnswer (d : Word32) (e : Bool) : Prop :=
  (e = true → d = 0x00000000#32) ∧ (d.extractLsb' 16 16 = 0#16 ∨ d.extractLsb' 0 13 = 0#13)

theorem responseLegal_iff (s : State) : s.responseLegal ↔ (s.afterReset = true → LegalAnswer s.rspData s.rspErr) := Iff.rfl

theorem legalAnswer_zero (e : Bool) : LegalAnswer 0x00000000#32 e := ⟨fun _ => rfl, .inl (by decide)⟩

/-- The mantissa of a widened pattern ends in 13 zeros on every path (R74 to R77). -/
theorem widenMagnitude_mod (e : Nat) {m : Nat} (hm : m < 2 ^ 10) : widenMagnitude e m % 2 ^ 13 = 0 := by
  rw [widenMagnitude_eq e hm]
  split
  · omega
  · split
    · split
      · rfl
      · rename_i h0
        obtain ⟨hp9, -, -⟩ := topBit_spec h0 9 (by omega)
        have hsplit : (2 : Nat) ^ (23 - topBit m 9) = 2 ^ (10 - topBit m 9) * 2 ^ 13 := by
          rw [← pow_add]; congr 1; omega
        rw [hsplit, ← mul_assoc, Nat.add_mul_mod_self_right]
        omega
    · omega

/-- Bits 12:0 of a widened pattern are zero. -/
theorem widen32_lowBits (h : Word16) : (widen32 h).extractLsb' 0 13 = 0#13 := by
  have hlow : (widen32 h).toNat % 2 ^ 13 = 0 := by
    have hmod := widenMagnitude_mod (exp16 h) (man16_lt h)
    rw [widen32, pack32_toNat (sign16_lt h) (widenMagnitude_lt (exp16_lt h) (man16_lt h))]
    omega
  apply BitVec.eq_of_toNat_eq
  rw [BitVec.extractLsb'_toNat, Nat.shiftRight_zero, hlow]
  rfl

/-- Every response is legal: a narrowed pattern is zero-extended, a widened one ends in zeros, and an error carries no data. -/
theorem legalAnswer_answerOf (i : Instr) : LegalAnswer (answerOf i).1 (answerOf i).2 := by
  cases i with
  | narrow a =>
    refine ⟨fun he => absurd he Bool.false_ne_true, .inl ?_⟩
    rw [answerOf, zeroExtend_eq_append, upperHalf_append]
  | widen aHi h => exact ⟨fun he => absurd he Bool.false_ne_true, .inr (widen32_lowBits h)⟩
  | qhalf a => exact ⟨fun he => absurd he Bool.false_ne_true, .inr (widen32_lowBits _)⟩
  | rsvd a => exact legalAnswer_zero true

/-- Settles O46: a reset writes zeros, a response is legal, and an idle edge holds the two registers. -/
theorem stepKeepsResponseLegal : Obligations.StepKeepsResponseLegal := by
  intro s t hlegal h
  rw [responseLegal_iff] at hlegal ⊢
  obtain ⟨-, rfl⟩ | ⟨c, rest, -, ⟨-, rfl⟩ | ⟨op, a, -, rfl⟩ | ⟨-, -, rfl⟩⟩ := step_cases h
  · exact hlegal
  · exact fun _ => legalAnswer_zero false
  · intro hs
    rw [State.respond_afterReset] at hs
    rw [State.respond_of_afterReset hs]
    exact legalAnswer_answerOf _
  · intro hs
    rw [State.idleEdge_afterReset] at hs
    rw [State.idleEdge_of_afterReset hs]
    exact hlegal hs

/-- Settles O47: the reset values are zeros. -/
theorem resetResponseIsLegal : Obligations.ResetResponseIsLegal :=
  (responseLegal_iff _).2 fun _ => legalAnswer_zero false

/-! ### Runs of a safe state -/

/-- Every step of a safe state answers, and leaves a safe state: with a cycle to come by R15, with none by log 6. -/
theorem step_safe {s : State} (hs : s.safe = true) : ∃ t, step s = .next t ∧ t.safe = true := by
  cases hin : s.inputs with
  | nil => exact ⟨s, step_of_nil hin, hs⟩
  | cons c rest =>
    obtain ⟨t, hstep, -, ht, -⟩ := step_of_safe hs hin
    exact ⟨t, hstep, ht⟩

/-- Settles O45, by induction on the number of steps. -/
theorem safeRunNeverStops : Obligations.SafeRunNeverStops := by
  intro k
  induction k with
  | zero => exact fun s hs => ⟨s, core_run_zero s, hs⟩
  | succ k ih =>
    intro s hs
    obtain ⟨t, hstep, ht⟩ := step_safe hs
    rw [core_run_succ hstep]
    exact ih t ht

theorem run_of_nil {s : State} (hin : s.inputs = []) (k : Nat) : Host.Core.run Sys2Proof.core k s = .next s := by
  induction k with
  | zero => exact core_run_zero s
  | succ k ih => exact (core_run_succ (step_of_nil hin) k).trans ih

/-- Settles O42: the run ends in the state it began in. -/
theorem noEdgeNoChange : Obligations.NoEdgeNoChange := by
  intro s k cs hin
  refine ⟨run_of_nil hin k, fun t ht => ?_⟩
  rw [run_of_nil hin k] at ht
  cases ht
  rfl

/-! ### When a step stops -/

/-- Settles O43: an unsteady edge is refused, and each of the three branches of R15 answers. -/
theorem stepStopsOnlyOnUnsteadyInput : Obligations.StepStopsOnlyOnUnsteadyInput := by
  intro s c rest hin
  rw [step_of_cons hin]
  refine ⟨fun hc => edge_of_unsteady hc _, fun hc => ?_⟩
  obtain hr | ⟨hr, hv⟩ | ⟨op, a, rfl⟩ := steady_cases hc
  · exact ⟨_, edge_of_reset hr _⟩
  · exact ⟨_, edge_of_idle hr hv _⟩
  · exact ⟨_, (edge_of_accept rfl rfl rfl rfl _).trans (exec_eq_respond _ _)⟩

/-! ### Before the first reset -/

/-- Before the first reset every instruction draws the registers (R24). -/
theorem exec_of_not_afterReset {s : State} (hs : s.afterReset = false) (i : Instr) : exec i s = .next s.drawRegisters := by
  rw [exec_eq_respond, State.respond_of_not_afterReset hs]

/-- Settles O11: both edges that are no reset draw the registers. -/
theorem outputsAreDrawsBeforeFirstReset : Obligations.OutputsAreDrawsBeforeFirstReset := by
  refine ⟨fun s c rest hs hin hc hrst => ?_, fun i s hs => exec_of_not_afterReset hs i⟩
  have hs' : State.afterReset { s with inputs := rest } = false := hs
  rw [step_of_cons hin]
  obtain hr | ⟨hr, hv⟩ | ⟨op, a, rfl⟩ := steady_cases hc
  · rw [hr] at hrst; cases hrst
  · rw [edge_of_idle hr hv, State.idleEdge_of_not_afterReset hs']
    rfl
  · rw [edge_of_accept rfl rfl rfl rfl, exec_of_not_afterReset hs']
    rfl

/-! ### The reset edge and the error bit -/

/-- Settles O2: the reset branch of the step rule. -/
theorem stateResetIsWhatAResetEdgeLeaves : Obligations.StateResetIsWhatAResetEdgeLeaves :=
  ⟨rfl, fun _ _ _ hin hr => ⟨_, step_of_reset hin hr, rfl⟩⟩

/-- Only the reserved op answers with an error (R89, R90). -/
theorem answerOf_err_iff (i : Instr) : (answerOf i).2 = true ↔ ∃ a, i = .rsvd a := by
  cases i <;> simp [answerOf]

/-- Settles O10: a response overwrites the error bit, so an earlier error does not stick. -/
theorem errorBitExactlyForReserved : Obligations.ErrorBitExactlyForReserved := by
  intro i s hs
  refine ⟨_, exec_eq_respond i s, ?_⟩
  rw [State.respond_of_afterReset hs]
  exact answerOf_err_iff i

end Sys2Proof.Machine
end

section
/-! PROOF. Requests and their responses over several cycles (10_state.md section 3; 30_encoding.md section 1;
70_reset_and_hazards.md R105, R106). -/

namespace Sys2Proof.Machine

open Sys2Proof.Statement

/-! ### Operand bits that are ignored -/

/-- A WIDEN answers from the lower half of its operand, and the reserved op from no part of it (R40). -/
theorem execPair_of_ignored {op : OpField} {a a' : Word32}
    (h : (op = 0b01#2 ∧ a.extractLsb' 0 16 = a'.extractLsb' 0 16) ∨ op = 0b11#2) (fix : NanFix) :
    execPair fix op a = execPair fix op a' := by
  obtain ⟨rfl, hlow⟩ | rfl := h
  · simp [execPair, hlow]
  · simp [execPair]

/-- Two operands with the same response are executed alike, before the first reset too. -/
theorem exec_congr_of_execPair {op : OpField} {a a' : Word32}
    (h : execPair Config.nanFix op a = execPair Config.nanFix op a') (s : State) :
    exec (decode (commandOf op a)) s = exec (decode (commandOf op a')) s := by
  rw [exec_eq_respond, exec_eq_respond, answerOf_decode_commandOf, answerOf_decode_commandOf, h]

/-- Settles O17: a cycle that is not accepted does not sample the operand, and an accepted one gives the same response. -/
theorem ignoredOperandBitsHaveNoEffect : Obligations.IgnoredOperandBitsHaveNoEffect := by
  intro s c a a' rest h
  by_cases hacc : c.rst = some false ∧ c.reqValid = some true
  · obtain ⟨hr, hv⟩ := hacc
    obtain ⟨op, hop, hign⟩ : ∃ op, c.reqOp = some op ∧
        ((op = 0b01#2 ∧ a.extractLsb' 0 16 = a'.extractLsb' 0 16) ∨ op = 0b11#2) := by
      obtain ⟨hop, hlow⟩ | hop := h
      · exact ⟨_, hop, .inl ⟨rfl, hlow⟩⟩
      · exact ⟨_, hop, .inr rfl⟩
    rw [step_of_cons rfl, step_of_cons rfl, edge_of_accept (c := { c with reqA := some a }) hr hv hop rfl,
      edge_of_accept (c := { c with reqA := some a' }) hr hv hop rfl]
    exact exec_congr_of_execPair (execPair_of_ignored hign _) _
  · rw [unacceptedRequestHasNoEffect s { c with reqA := some a' } c.reqOp (some a) rest hacc]

/-! ### One response, wherever its request stands -/

/-- Settles O38: an accepted cycle is answered by its own two fields, in each of the two runs. -/
theorem responseDependsOnlyOnItsRequest : Obligations.ResponseDependsOnlyOnItsRequest := by
  intro s s' k k' c hs hs' hacc hk hk'
  obtain ⟨o, ho, hvalid, hresp⟩ := observation_getElem?_answers hs hk
  obtain ⟨o', ho', hvalid', hresp'⟩ := observation_getElem?_answers hs' hk'
  obtain ⟨op, a, hop, ha⟩ : ∃ op a, c.reqOp = some op ∧ c.reqA = some a := by
    obtain hr | hidle | ⟨op, a, rfl⟩ := steady_cases (((safe_iff s).1 hs).2 c (List.mem_of_getElem? hk))
    · rw [accepts_of_reset hr] at hacc; cases hacc
    · rw [accepts_of_idle hidle] at hacc; cases hacc
    · exact ⟨op, a, rfl, rfl⟩
  have hdata : (o.rspData, o.rspErr) = (o'.rspData, o'.rspErr) :=
    (hresp op a hacc hop ha).trans (hresp' op a hacc hop ha).symm
  obtain ⟨hd, he⟩ := Prod.mk.inj hdata
  have hout : o = o' := by
    cases o; cases o'
    simp_all
  rw [ho, ho', hout]

/-! ### Requests and resets in a row -/

/-- A presented instruction is answered with its response (R46, R49). -/
theorem step_of_instr {s : State} {i : Instr} {rest : List Inputs} (hs : s.afterReset = true)
    (hin : s.inputs = requestInputs (encode i) :: rest) :
    step s = .next (answered { s with inputs := rest } (responseTo i).1 (responseTo i).2) :=
  step_of_request hs hin

/-- Settles O39: the two steps, each observed. -/
theorem resetEndsAVisibleResponse : Obligations.ResetEndsAVisibleResponse := by
  intro s i c hs hr hin
  rw [observation_of_step hin (step_of_instr hs hin), observation_of_step rfl (step_of_reset rfl hr), observation_of_nil rfl]
  rfl

/-- Any number of reset edges after the first leaves what the first left (R105). -/
theorem run_of_resets {more rest : List Inputs} (hmore : ∀ c ∈ more, c.rst = some true) {s : State}
    (hin : s.inputs = more ++ rest) (k : Nat) (hs : s.resetEdge = s) :
    Host.Core.run Sys2Proof.core (more.length + k) s = Host.Core.run Sys2Proof.core k { s with inputs := rest } := by
  induction more generalizing s with
  | nil => rw [List.nil_append] at hin; subst hin; rw [List.length_nil, Nat.zero_add]
  | cons c cs ih =>
    obtain ⟨hc, hcs⟩ := List.forall_mem_cons.1 hmore
    have hfix : State.resetEdge { s with inputs := cs ++ rest } = { s with inputs := cs ++ rest } := by
      conv_rhs => rw [← hs]
      rfl
    have hstep : step s = .next { s with inputs := cs ++ rest } := (step_of_reset hin hc).trans (congrArg _ hfix)
    rw [List.length_cons, Nat.add_right_comm]
    exact (core_run_succ hstep _).trans (ih hcs rfl hfix)

/-- Settles O41: one reset edge from any state, the further ones, and the request. -/
theorem oneResetEdgeIsEnough : Obligations.OneResetEdgeIsEnough := by
  intro s c more i rest hr hmore hin
  exact (core_run_succ (step_of_reset hin hr) (more.length + 1)).trans
    ((run_of_resets hmore rfl 1 rfl).trans (core_run_succ (step_of_instr rfl rfl) 0))

/-- The response of R46 to an encoded instruction is that of the instruction. -/
theorem responseTo_eq_answerOf (i : Instr) : responseTo i = answerOf i := by
  rw [responseTo, ← answerOf_decode_commandOf, commandOf_fields, decode_encode]

/-- Settles O40: the two steps; the lower half of a zero-extended pattern is the pattern. -/
theorem narrowThenWidenEqualsQhalf : Obligations.NarrowThenWidenEqualsQhalf := by
  intro s a aHi rest rest' hs hin
  refine ⟨_, _, step_of_instr hs hin, rfl, step_of_instr hs rfl, ?_⟩
  simp only [answered, State.outputs, responseTo_eq_answerOf, answerOf, qhalf, zeroExtend_eq_append, lowerHalf_append]

end Sys2Proof.Machine
end

section
/-! PROOF. Rounding to nearest even, on the 15-bit magnitudes of binary16 (40_narrow.md R61). Magnitudes are ordered as their values
are, so a rounding is known once it is known which magnitudes it is above: those whose midpoint with the next one it has passed. -/

namespace Sys2Proof.Machine

/-! ### The values of magnitudes -/

/-- The value of a binary16 magnitude in units of `2^−24`, the infinite one read as `2^16` (R44). -/
def units16 (n : Nat) : Nat := significand 10 (n / 2 ^ 10) (n % 2 ^ 10) * 2 ^ (n / 2 ^ 10 - 1)

/-- The midpoint of a magnitude and the next one, in units of `2^−25`. -/
def midpoint16 (n : Nat) : Nat := units16 n + units16 (n + 1)

/-- The exponent and mantissa fields of a pattern as one number, `h[14:0]` (R43). -/
def magnitude16 (h : Word16) : Nat := exp16 h * 2 ^ 10 + man16 h

/-- A number of units of `2^−25` is rounded to a magnitude above `k`: it is above the midpoint that follows `k`, or on it while `k` is
odd (R61). -/
def RoundsAbove (k : Nat) (q : ℚ) : Prop := (midpoint16 k : ℚ) < q ∨ ((midpoint16 k : ℚ) = q ∧ k % 2 = 1)

/-- The next magnitude is one unit in the last place away, across the exponents too (R63). -/
theorem units16_succ (n : Nat) : units16 (n + 1) = units16 n + 2 ^ (n / 2 ^ 10 - 1) := by
  unfold units16
  by_cases hcarry : n % 2 ^ 10 = 2 ^ 10 - 1
  · rw [show (n + 1) / 2 ^ 10 = n / 2 ^ 10 + 1 by omega, show (n + 1) % 2 ^ 10 = 0 by omega, hcarry]
    cases n / 2 ^ 10 with
    | zero => rfl
    | succ e =>
      simp only [significand, Nat.add_sub_cancel, Nat.succ_ne_zero, if_false]
      ring
  · rw [show (n + 1) / 2 ^ 10 = n / 2 ^ 10 by omega, show (n + 1) % 2 ^ 10 = n % 2 ^ 10 + 1 by omega]
    simp only [significand]
    split <;> ring

theorem units16_strictMono : StrictMono units16 :=
  strictMono_nat_of_lt_succ fun n => by
    have := Nat.two_pow_pos (n / 2 ^ 10 - 1)
    rw [units16_succ]; omega

theorem midpoint16_strictMono : StrictMono midpoint16 := fun _ _ h =>
  Nat.add_lt_add (units16_strictMono h) (units16_strictMono (Nat.succ_lt_succ h))

theorem midpoint16_lt_of_lt {k t : Nat} (h : k < t) : midpoint16 k < 2 * units16 t := by
  have hk := units16_strictMono h
  have hsucc : units16 (k + 1) ≤ units16 t := units16_strictMono.monotone h
  rw [midpoint16]; omega

theorem le_midpoint16_of_lt {k t : Nat} (h : t < k) : 2 * units16 (t + 1) ≤ midpoint16 k := by
  have hk : units16 (t + 1) ≤ units16 k := units16_strictMono.monotone h
  have hsucc := units16_strictMono (Nat.lt_add_one k)
  rw [midpoint16]; omega

/-- The midpoints of the spec's boundaries: `2^−25`, `1023.5 × 2^−24` and `65520` (R59, R63, C1). -/
theorem midpoint16_boundaries :
    midpoint16 0 = 1 ∧ midpoint16 0x3FF = 2047 ∧ midpoint16 0x400 = 2049 ∧
    midpoint16 0x7BFE = 65488 * 2 ^ 25 ∧ midpoint16 0x7BFF = 65520 * 2 ^ 25 := by
  norm_num [midpoint16, units16, significand]

/-- A larger number is rounded above whatever a smaller one is. -/
theorem RoundsAbove.mono {k : Nat} {q q' : ℚ} (h : RoundsAbove k q) (hq : q ≤ q') : RoundsAbove k q' := by
  obtain h | ⟨h, hodd⟩ := h
  · exact .inl (h.trans_le hq)
  · rcases hq.lt_or_eq with hlt | rfl
    · exact .inl (h.trans_lt hlt)
    · exact .inr ⟨h, hodd⟩

theorem RoundsAbove.midpoint_le {k : Nat} {q : ℚ} (h : RoundsAbove k q) : (midpoint16 k : ℚ) ≤ q := by
  obtain h | ⟨h, -⟩ := h
  · exact h.le
  · exact h.le

theorem le_midpoint_of_not_roundsAbove {k : Nat} {q : ℚ} (h : ¬RoundsAbove k q) : q ≤ midpoint16 k :=
  not_lt.1 fun hlt => h (.inl hlt)

/-! ### The rounding of the datapath -/

/-- Round bit and sticky compare the discarded bits with half a unit (R61). -/
theorem roundEven_eq_of_remainder {M sh : Nat} (hsh : 1 ≤ sh) (t : Nat) :
    roundEven t (roundBit M sh) (sticky M sh) =
      if 2 ^ sh < 2 * (M % 2 ^ sh) ∨ (2 ^ sh = 2 * (M % 2 ^ sh) ∧ t % 2 = 1) then t + 1 else t := by
  obtain ⟨n, rfl⟩ := Nat.exists_eq_add_of_le' hsh
  have hrem : M % 2 ^ (n + 1) = 2 ^ n * (M / 2 ^ n % 2) + M % 2 ^ n := by
    rw [pow_succ, Nat.mod_mul, Nat.add_comm]
  have hlt : M % 2 ^ n < 2 ^ n := Nat.mod_lt _ (Nat.two_pow_pos n)
  rw [roundEven_eq (roundBit_lt _ _) (sticky_lt _ _), roundBit_eq, sticky_eq, Nat.add_sub_cancel, hrem, pow_succ]
  obtain hr | hr : M / 2 ^ n % 2 = 0 ∨ M / 2 ^ n % 2 = 1 := by omega
  · rw [hr, if_neg (by omega), if_neg (by omega)]
  · rw [hr]
    refine if_congr ?_ rfl rfl
    split <;> omega

/-- The rounding of `M` with `sh` bits discarded is above exactly the magnitudes that `2 × M / 2^sh` units round above, when the kept
part `t` counts `M / 2^sh` units in the last place, each worth `g`. -/
theorem lt_roundEven_iff_roundsAbove {t M sh g : Nat} {q : ℚ} (hsh : 1 ≤ sh) (hg : g = 2 ^ (t / 2 ^ 10 - 1))
    (ht : units16 t = M / 2 ^ sh * g) (hq : q * 2 ^ sh = 2 * M * g) (k : Nat) :
    k < roundEven t (roundBit M sh) (sticky M sh) ↔ RoundsAbove k q := by
  have hS : (0 : ℚ) < 2 ^ sh := by positivity
  have hgpos : 0 < g := hg ▸ Nat.two_pow_pos _
  have hlt : ∀ c : Nat, ((c * g : ℕ) : ℚ) < q ↔ c * 2 ^ sh < 2 * M := fun c => by
    rw [← Nat.mul_lt_mul_right hgpos, mul_right_comm c, ← mul_lt_mul_iff_of_pos_right hS, hq]
    exact_mod_cast Iff.rfl
  have heq : ∀ c : Nat, ((c * g : ℕ) : ℚ) = q ↔ c * 2 ^ sh = 2 * M := fun c => by
    rw [← Nat.mul_left_inj hgpos.ne', mul_right_comm c, ← mul_left_inj' hS.ne', hq]
    exact_mod_cast Iff.rfl
  have hle : ∀ c : Nat, ((c * g : ℕ) : ℚ) ≤ q ↔ c * 2 ^ sh ≤ 2 * M := fun c => by
    simp only [le_iff_lt_or_eq, hlt, heq]
  have hdiv := Nat.div_add_mod M (2 ^ sh)
  have hrem : M % 2 ^ sh < 2 ^ sh := Nat.mod_lt _ (Nat.two_pow_pos sh)
  have hsucc : units16 (t + 1) = (M / 2 ^ sh + 1) * g := by rw [units16_succ, ht, ← hg, Nat.succ_mul]
  generalize M / 2 ^ sh = D at *
  rw [roundEven_eq_of_remainder hsh]
  obtain hk | rfl | hk := lt_trichotomy k t
  · have hbelow : (midpoint16 k : ℚ) < ((2 * D * g : ℕ) : ℚ) := by
      rw [mul_assoc, ← ht]
      exact_mod_cast midpoint16_lt_of_lt hk
    have hkept : ((2 * D * g : ℕ) : ℚ) ≤ q := (hle _).2 (by rw [mul_assoc, mul_comm D]; omega)
    exact iff_of_true (by split <;> omega) (.inl (hbelow.trans_le hkept))
  · have hmid : midpoint16 k = (2 * D + 1) * g := by rw [midpoint16, ht, hsucc]; ring
    have hsplit : (2 * D + 1) * 2 ^ sh = 2 * (2 ^ sh * D) + 2 ^ sh := by ring
    have hover : (2 * D + 1) * 2 ^ sh < 2 * M ↔ 2 ^ sh < 2 * (M % 2 ^ sh) := by rw [hsplit]; omega
    have htie : (2 * D + 1) * 2 ^ sh = 2 * M ↔ 2 ^ sh = 2 * (M % 2 ^ sh) := by rw [hsplit]; omega
    rw [RoundsAbove, hmid, hlt, heq, hover, htie]
    split
    · exact iff_of_true (by omega) ‹_›
    · exact iff_of_false (by omega) ‹_›
  · refine iff_of_false (by split <;> omega) fun habove => ?_
    have hmid : ((2 * (D + 1) * g : ℕ) : ℚ) ≤ midpoint16 k := by
      rw [mul_assoc, ← hsucc]
      exact_mod_cast le_midpoint16_of_lt hk
    have hreach := (hle (2 * (D + 1))).1 (hmid.trans habove.midpoint_le)
    have hsplit : 2 * (D + 1) * 2 ^ sh = 2 * (2 ^ sh * D) + 2 * 2 ^ sh := by ring
    omega

end Sys2Proof.Machine
end

section
/-! PROOF. NARROW as one rounding: of an operand with a real value `x`, the result is above exactly the magnitudes that `|x|` rounds
above (40_narrow.md R58 to R63). Its overflow boundary and its carries follow (R60, R63, C1). -/

namespace Sys2Proof.Machine

/-! ### The kept part of each path -/

/-- The fields of a magnitude give its units back (R44). -/
theorem units16_of_fields {e f : Nat} (hf : f < 2 ^ 10) : units16 (e * 2 ^ 10 + f) = significand 10 e f * 2 ^ (e - 1) := by
  rw [units16, show (e * 2 ^ 10 + f) / 2 ^ 10 = e by omega, show (e * 2 ^ 10 + f) % 2 ^ 10 = f by omega]

/-- A subnormal magnitude counts units of `2^−24` (R44). -/
theorem units16_of_subnormal {k : Nat} (hk : k < 2 ^ 10) : units16 k = k := by
  simpa [significand] using units16_of_fields (e := 0) hk

/-- The discarded bits of a significand are those of its mantissa: the implicit bit is above them (R62). -/
theorem narrowNormal_eq_significand {m : Nat} (e16 : Int) (hm : m < 2 ^ 23) :
    narrowNormal e16 m =
      roundEven (e16.toNat * 2 ^ 10 + m / 2 ^ 13) (roundBit (m + 2 ^ 23) 13) (sticky (m + 2 ^ 23) 13) := by
  have hround : roundBit (m + 2 ^ 23) 13 = roundBit m 13 := by rw [roundBit_eq, roundBit_eq]; omega
  have hsticky : sticky (m + 2 ^ 23) 13 = sticky m 13 := by
    rw [sticky_eq, sticky_eq, show (m + 2 ^ 23) % 2 ^ (13 - 1) = m % 2 ^ (13 - 1) by omega]
  rw [narrowNormal_eq e16 hm, hround, hsticky]

/-- `|x|` of a normal operand is its significand, in units of `2^−25`, times a power of two (R42, R44). -/
theorem abs_mul_eq_significand {a : Word32} {x : ℚ} (hx : value32 a = .finite x) (he : 1 ≤ exp32 a) :
    |x| * 2 ^ 25 = ((man32 a + 2 ^ 23 : ℕ) : ℚ) * (2 : ℚ) ^ ((exp32 a : ℤ) - 125) := by
  obtain ⟨-, habs⟩ := abs_of_value32 hx
  rw [habs, significand, if_neg (by omega), Nat.max_eq_left he, mul_assoc, ← zpow_natCast, ← zpow_add₀ two_ne_zero]
  congr 2
  push_cast
  ring

/-- The significand shifted right by 14 or more is the magnitude of a subnormal (R60). -/
theorem shifted_significand_lt {m sh : Nat} (hm : m < 2 ^ 23) (hsh : 14 ≤ sh) : (m + 2 ^ 23) / 2 ^ sh < 2 ^ 10 := by
  rw [Nat.div_lt_iff_lt_mul (by positivity)]
  calc m + 2 ^ 23 < 2 ^ 10 * 2 ^ 14 := by omega
    _ ≤ 2 ^ 10 * 2 ^ sh := Nat.mul_le_mul_left _ (Nat.pow_le_pow_right (by omega) hsh)

/-- R60: on the subnormal path the kept part is `M / 2^sh` and counts units of `2^−24`. -/
theorem lt_narrowSubnormal_iff {a : Word32} {x : ℚ} (hx : value32 a = .finite x) (hlo : 102 ≤ exp32 a) (hhi : exp32 a ≤ 112)
    (k : Nat) : k < narrowSubnormal (rebias (exp32 a)) (man32 a) ↔ RoundsAbove k (|x| * 2 ^ 25) := by
  have hm := man32_lt a
  obtain ⟨sh, hsh⟩ : ∃ sh, exp32 a + sh = 126 := ⟨126 - exp32 a, by omega⟩
  have hshift : (14 - rebias (exp32 a)).toNat = sh := by unfold rebias; omega
  have hkept := shifted_significand_lt hm (show 14 ≤ sh by omega)
  rw [narrowSubnormal_eq _ hm, hshift]
  refine lt_roundEven_iff_roundsAbove (g := 1) (by omega) ?_ ?_ ?_ k
  · rw [Nat.div_eq_of_lt hkept]; rfl
  · rw [units16_of_subnormal hkept, mul_one]
  · rw [abs_mul_eq_significand hx (by omega), mul_assoc, ← zpow_natCast, ← zpow_add₀ two_ne_zero,
      show ((exp32 a : ℤ) - 125) + (sh : ℤ) = 1 by omega]
    push_cast
    ring

/-- R62: on the normal path 13 bits are discarded, and the kept part is the packed field. -/
theorem lt_narrowNormal_iff {a : Word32} {x : ℚ} (hx : value32 a = .finite x) (hlo : 113 ≤ exp32 a) (hhi : exp32 a ≤ 142)
    (k : Nat) : k < narrowNormal (rebias (exp32 a)) (man32 a) ↔ RoundsAbove k (|x| * 2 ^ 25) := by
  have hm := man32_lt a
  obtain ⟨e, he⟩ : ∃ e, exp32 a = e + 113 := ⟨exp32 a - 113, by omega⟩
  have hreb : (rebias (exp32 a)).toNat = e + 1 := by unfold rebias; omega
  have hfrac : man32 a / 2 ^ 13 < 2 ^ 10 := by omega
  rw [narrowNormal_eq_significand _ hm, hreb]
  refine lt_roundEven_iff_roundsAbove (g := 2 ^ e) (by omega) ?_ ?_ ?_ k
  · rw [show ((e + 1) * 2 ^ 10 + man32 a / 2 ^ 13) / 2 ^ 10 - 1 = e by omega]
  · rw [units16_of_fields hfrac, significand, if_neg (by omega), Nat.add_sub_cancel,
      show (man32 a + 2 ^ 23) / 2 ^ 13 = man32 a / 2 ^ 13 + 2 ^ 10 by omega]
  · rw [abs_mul_eq_significand hx (by omega), mul_assoc, ← zpow_natCast, ← zpow_add₀ two_ne_zero,
      show ((exp32 a : ℤ) - 125) + ((13 : ℕ) : ℤ) = 1 + (e : ℤ) by rw [he]; push_cast; ring, zpow_add₀ two_ne_zero,
      zpow_natCast]
    push_cast
    ring

/-! ### NARROW as one rounding -/

/-- The result of NARROW is above a finite magnitude exactly when its operand rounds above it, on every path of R53. -/
theorem lt_narrowMagnitude_iff (fix : NanFix) {a : Word32} {x : ℚ} (hx : value32 a = .finite x) {k : Nat} (hk : k < 0x7C00) :
    k < narrowMagnitude fix (exp32 a) (man32 a) ↔ RoundsAbove k (|x| * 2 ^ 25) := by
  obtain ⟨hfin, -⟩ := abs_of_value32 hx
  obtain ⟨hover, -, hflush⟩ := le_exp32_iff_le_abs hx
  obtain ⟨hfirst, -, -, -, hlast⟩ := midpoint16_boundaries
  have hreb : rebias (exp32 a) = (exp32 a : ℤ) - 112 := rfl
  rw [narrowMagnitude, if_neg hfin]
  split
  · have hbig : (2 : ℚ) ^ 16 ≤ |x| := hover.1 (by omega)
    have hmid : (midpoint16 k : ℚ) ≤ 65520 * 2 ^ 25 := by
      exact_mod_cast hlast ▸ midpoint16_strictMono.monotone (Nat.le_of_lt_succ hk)
    exact iff_of_true hk (.inl (by linarith))
  · split
    · have hsmall : |x| < 1 / 2 ^ 25 := not_le.1 fun h => absurd (hflush.2 h) (by omega)
      have hmid : (1 : ℚ) ≤ midpoint16 k := by
        exact_mod_cast hfirst ▸ midpoint16_strictMono.monotone (Nat.zero_le k)
      exact iff_of_false (Nat.not_lt_zero k) fun habove => by linarith [habove.midpoint_le]
    · split
      · exact lt_narrowSubnormal_iff hx (by omega) (by omega) k
      · exact lt_narrowNormal_iff hx (by omega) (by omega) k

/-- Only a NaN narrows to a magnitude above that of infinity (R55). -/
theorem narrowMagnitude_le (fix : NanFix) {a : Word32} (h : exp32 a ≠ 255 ∨ man32 a = 0) :
    narrowMagnitude fix (exp32 a) (man32 a) ≤ 0x7C00 := by
  unfold narrowMagnitude
  split
  · rw [narrowSpecial, if_pos (by omega)]
  · split
    · omega
    · split
      · omega
      · split
        · have := narrowSubnormal_le (e16 := rebias (exp32 a)) (by omega) (man32_lt a); omega
        · exact (narrowNormal_bounds (by omega) (by omega) (man32_lt a)).2

end Sys2Proof.Machine
end

section
/-! PROOF. NARROW into the subnormals, its carries and its boundary points (40_narrow.md R60, R63, R71). -/

namespace Sys2Proof.Machine

/-! ### Deciding a rounding by a midpoint -/

theorem not_roundsAbove_of_lt {k : Nat} {q : ℚ} (h : q < midpoint16 k) : ¬RoundsAbove k q :=
  fun habove => absurd h (not_lt.2 habove.midpoint_le)

/-- On its midpoint an odd magnitude rounds up (R61). -/
theorem roundsAbove_iff_of_odd {k : Nat} (hodd : k % 2 = 1) (q : ℚ) : RoundsAbove k q ↔ (midpoint16 k : ℚ) ≤ q := by
  simp only [RoundsAbove, hodd, and_true, le_iff_lt_or_eq]

/-- On its midpoint an even magnitude stays (R61). -/
theorem roundsAbove_iff_of_even {k : Nat} (heven : k % 2 = 0) (q : ℚ) : RoundsAbove k q ↔ (midpoint16 k : ℚ) < q := by
  simp [RoundsAbove, heven]

/-- Settles O24: in each clause the operand is at or past the midpoint below its result, and not at the one above. -/
theorem narrowRoundingCarry : Obligations.NarrowRoundingCarry := by
  intro fix a x hx
  obtain ⟨-, h3FF, h400, h7BFE, h7BFF⟩ := midpoint16_boundaries
  have hmax := narrowMagnitude_le fix (.inl (abs_of_value32 hx).1)
  have habove := fun (k : Nat) (hk : k < 0x7C00) => lt_narrowMagnitude_iff fix hx hk
  refine ⟨fun hlo => ?_, fun hlo hhi => ?_, fun hlo hhi => ?_⟩ <;> rw [narrow16] <;> congr 1
  · have hge := (habove 0x7BFF (by omega)).2 ((roundsAbove_iff_of_odd (by omega) _).2 (by rw [h7BFF]; push_cast; linarith))
    omega
  · have hge := (habove 0x7BFE (by omega)).2 (.inl (by rw [h7BFE]; push_cast; linarith))
    have hle := mt (habove 0x7BFF (by omega)).1 (not_roundsAbove_of_lt (by rw [h7BFF]; push_cast; linarith))
    omega
  · have hge := (habove 0x3FF (by omega)).2 ((roundsAbove_iff_of_odd (by omega) _).2 (by rw [h3FF]; push_cast; linarith))
    have hle := mt (habove 0x400 (by omega)).1 (not_roundsAbove_of_lt (by rw [h400]; push_cast; linarith))
    omega

/-! ### The subnormal results -/

theorem narrow16_of_subnormal (fix : NanFix) {a : Word32} (hlo : 102 ≤ exp32 a) (hhi : exp32 a ≤ 112) :
    narrow16 fix a = pack16 (sign32 a) (narrowSubnormal (rebias (exp32 a)) (man32 a)) := by
  have hreb : -10 ≤ rebias (exp32 a) ∧ rebias (exp32 a) ≤ 0 := by unfold rebias; omega
  rw [narrow16, narrowMagnitude, if_neg (by omega), if_neg (by omega), if_neg (by omega), if_pos hreb.2]

/-- R60: the magnitude of a subnormal result, through the kept part and the discarded bits. -/
theorem narrowSubnormal_eq_round {a : Word32} {sh : Nat} (hsh : sh + exp32 a = 126) :
    narrowSubnormal (rebias (exp32 a)) (man32 a) =
      if (man32 a + 0x800000) / 2 ^ (sh - 1) % 2 = 1 ∧
          ((if (man32 a + 0x800000) % 2 ^ (sh - 1) = 0 then 0 else 1) = 1 ∨ (man32 a + 0x800000) / 2 ^ sh % 2 = 1)
      then (man32 a + 0x800000) / 2 ^ sh + 1 else (man32 a + 0x800000) / 2 ^ sh := by
  have hshift : (14 - rebias (exp32 a)).toNat = sh := by unfold rebias; omega
  rw [narrowSubnormal_eq _ (man32_lt a), hshift, roundEven_eq (roundBit_lt _ _) (sticky_lt _ _), roundBit_eq, sticky_eq]
  rfl

/-- R60: the shifted significand is `|x|` in units of `2^−24`. -/
theorem shifted_significand_eq {a : Word32} {x : ℚ} (hx : value32 a = .finite x) (he : 1 ≤ exp32 a) {sh : Nat}
    (hsh : sh + exp32 a = 126) : ((man32 a + 0x800000 : ℕ) : ℚ) / 2 ^ sh = |x| * 2 ^ 24 := by
  have habs := abs_mul_eq_significand hx he
  have hexp : (2 : ℚ) ^ ((exp32 a : ℤ) - 125) * 2 ^ sh = 2 := by
    rw [← zpow_natCast, ← zpow_add₀ two_ne_zero, show ((exp32 a : ℤ) - 125) + (sh : ℤ) = 1 by omega, zpow_one]
  rw [div_eq_iff (by positivity)]
  linear_combination (-(2 : ℚ) ^ sh / 2) * habs - ((man32 a + 0x800000 : ℕ) : ℚ) / 2 * hexp

/-- R60: zero is the result of exactly the smallest operand of the path, the tie at `2^−25`. -/
theorem narrowSubnormal_eq_zero_iff {a : Word32} {x : ℚ} (hx : value32 a = .finite x) (hlo : 102 ≤ exp32 a)
    (hhi : exp32 a ≤ 112) : narrowSubnormal (rebias (exp32 a)) (man32 a) = 0 ↔ |x| = 1 / 2 ^ 25 := by
  have hmin : 1 / 2 ^ 25 ≤ |x| := (le_exp32_iff_le_abs hx).2.2.1 hlo
  have hzero := (lt_narrowSubnormal_iff hx hlo hhi 0).trans (roundsAbove_iff_of_even rfl _)
  rw [midpoint16_boundaries.1, Nat.cast_one] at hzero
  constructor
  · intro h
    have hmax : |x| * 2 ^ 25 ≤ 1 := not_lt.1 fun hlt => absurd (hzero.2 hlt) (by omega)
    linarith
  · intro h
    have hle : ¬1 < |x| * 2 ^ 25 := by rw [h]; norm_num
    exact Nat.eq_zero_of_not_pos fun hpos => hle (hzero.1 hpos)

/-- Settles O22: exponent fields 102 to 112, which is from `2^−25` to below `2^−14`, the subnormal path. -/
theorem narrowSubnormalResult : Obligations.NarrowSubnormalResult := by
  intro fix a x hx
  obtain ⟨-, hnormal, hflush⟩ := le_exp32_iff_le_abs hx
  have hreb : (-10 ≤ rebias (exp32 a) ∧ rebias (exp32 a) ≤ 0) ↔ (102 ≤ exp32 a ∧ exp32 a ≤ 112) := by
    unfold rebias; omega
  refine ⟨hreb, ?_, fun hlo hhi => ?_⟩
  · rw [hreb, ← hflush, ← not_le, ← hnormal]; omega
  · have hsh : 126 - exp32 a + exp32 a = 126 := by omega
    have hkept := shifted_significand_lt (man32_lt a) (show 14 ≤ 126 - exp32 a by omega)
    exact ⟨_, 126 - exp32 a, _, _, _, _, rfl, hsh, rfl, Nat.le_of_lt_succ hkept, rfl, rfl, narrowSubnormal_eq_round hsh,
      narrowSubnormal_le (hreb.2 ⟨hlo, hhi⟩).2 (man32_lt a), narrow16_of_subnormal fix hlo hhi,
      shifted_significand_eq hx (by omega) hsh, narrowSubnormal_eq_zero_iff hx hlo hhi⟩

/-! ### The boundary table -/

/-- `NAN_FIX` matters to infinities and NaNs only (R56). -/
theorem narrow16_eq_of_not_special {a : Word32} (hfin : exp32 a ≠ 255) (fix fix' : NanFix) :
    narrow16 fix a = narrow16 fix' a := by
  rw [narrow16, narrow16, narrowMagnitude, narrowMagnitude, if_neg hfin, if_neg hfin]

/-- Settles O29: no row is a NaN, so the table evaluated under one `NAN_FIX` is the table under each. -/
theorem narrowBoundaryPoints : Obligations.NarrowBoundaryPoints := by
  intro fix
  refine ⟨?_, ?_, ?_, ?_, ?_, ?_, ?_, ?_, ?_, ?_, ?_⟩ <;>
    rw [narrow16_eq_of_not_special (fix' := .setLsbIfZero)] <;> decide

end Sys2Proof.Machine
end

section
/-! PROOF. NARROW is correctly rounded, within half a unit in the last place, and monotonic (40_narrow.md R69, R70). -/

namespace Sys2Proof.Machine

/-! ### Values by magnitude -/

theorem magnitude16_div (h : Word16) : magnitude16 h / 2 ^ 10 = exp16 h := by
  have := man16_lt h
  rw [magnitude16]; omega

theorem magnitude16_mod (h : Word16) : magnitude16 h % 2 ^ 10 = man16 h := by
  have := man16_lt h
  rw [magnitude16]; omega

/-- A binary16 pattern has a real value exactly when its magnitude is below that of infinity, and which it is (R44). -/
theorem value16_eq_finite_iff_units (h : Word16) (z : ℚ) :
    value16 h = .finite z ↔ magnitude16 h < 0x7C00 ∧ z = (-1) ^ sign16 h * ((units16 (magnitude16 h) : ℚ) / 2 ^ 24) := by
  have he := exp16_lt h
  have hm := man16_lt h
  have hscale : (2 : ℚ) ^ ((max (exp16 h) 1 : ℕ) - 25 : ℤ) = 2 ^ (exp16 h - 1) / 2 ^ 24 := by
    rw [show ((max (exp16 h) 1 : ℕ) - 25 : ℤ) = ((exp16 h - 1 : ℕ) : ℤ) - (24 : ℕ) by omega, zpow_sub₀ two_ne_zero,
      zpow_natCast, zpow_natCast]
  rw [value16_eq_finite_iff, hscale, units16, magnitude16_div, magnitude16_mod]
  refine and_congr (by rw [magnitude16]; omega) ?_
  push_cast
  rw [mul_assoc, mul_div_assoc]

theorem ulp16_eq (h : Word16) : ulp16 h = 2 ^ (magnitude16 h / 2 ^ 10 - 1) / 2 ^ 24 := by
  rw [ulp16, magnitude16_div, show ((max (exp16 h) 1 : ℕ) - 25 : ℤ) = ((exp16 h - 1 : ℕ) : ℤ) - (24 : ℕ) by omega,
    zpow_sub₀ two_ne_zero, zpow_natCast, zpow_natCast]

theorem magnitude16_narrow16 (fix : NanFix) (a : Word32) :
    magnitude16 (narrow16 fix a) = narrowMagnitude fix (exp32 a) (man32 a) := by
  obtain ⟨-, hexp, hman⟩ := narrow16_fields fix a
  rw [magnitude16, hexp, hman, mul_comm]
  exact Nat.div_add_mod _ _

/-- The real value of an operand is its magnitude under its sign (R44). -/
theorem eq_sign_mul_abs {a : Word32} {x : ℚ} (hx : value32 a = .finite x) : x = (-1) ^ sign32 a * |x| := by
  obtain ⟨-, habs⟩ := abs_of_value32 hx
  obtain ⟨-, hval⟩ := (value32_eq_finite_iff a x).1 hx
  rw [habs, ← mul_assoc]
  exact hval

/-! ### The distance to the rounded magnitude -/

/-- What makes `n` the rounding of `q`: it rounds above every smaller magnitude, and not above `n`. -/
def RoundsTo (n : Nat) (q : ℚ) : Prop := (∀ p < n, RoundsAbove p q) ∧ ¬RoundsAbove n q

/-- A finite result of NARROW is the rounding of its operand. -/
theorem roundsTo_narrow16 (fix : NanFix) {a : Word32} {x : ℚ} (hx : value32 a = .finite x)
    (hn : magnitude16 (narrow16 fix a) < 0x7C00) : RoundsTo (magnitude16 (narrow16 fix a)) (|x| * 2 ^ 25) := by
  rw [magnitude16_narrow16] at hn ⊢
  exact ⟨fun p hp => (lt_narrowMagnitude_iff fix hx (hp.trans hn)).1 hp,
    fun h => absurd ((lt_narrowMagnitude_iff fix hx hn).2 h) (lt_irrefl _)⟩

/-- The rounding is a nearest magnitude, and on a tie with another it is even (R61, R69). -/
theorem RoundsTo.nearest {n : Nat} {q : ℚ} (h : RoundsTo n q) (u : Nat) :
    |2 * (units16 n : ℚ) - q| ≤ |2 * (units16 u : ℚ) - q| ∧
    (u ≠ n → |2 * (units16 n : ℚ) - q| = |2 * (units16 u : ℚ) - q| → n % 2 = 0) := by
  obtain ⟨hlow, hup⟩ := h
  obtain hlt | rfl | hgt := lt_trichotomy u n
  · obtain ⟨p, rfl⟩ : ∃ p, n = p + 1 := ⟨n - 1, by omega⟩
    have habove := hlow p (Nat.lt_add_one p)
    have hmid : (units16 p : ℚ) + units16 (p + 1) ≤ q := by exact_mod_cast habove.midpoint_le
    have hu : (units16 u : ℚ) ≤ units16 p := by exact_mod_cast units16_strictMono.monotone (Nat.le_of_lt_succ hlt)
    have hp : (units16 p : ℚ) < units16 (p + 1) := by exact_mod_cast units16_strictMono (Nat.lt_add_one p)
    have hright : |2 * (units16 u : ℚ) - q| = q - 2 * units16 u := by rw [abs_of_nonpos (by linarith)]; ring
    rw [hright]
    refine ⟨abs_le.2 ⟨by linarith, by linarith⟩, fun _ htie => ?_⟩
    by_contra hodd
    have hstrict := (roundsAbove_iff_of_even (k := p) (by omega) q).1 habove
    rw [midpoint16, Nat.cast_add] at hstrict
    exact absurd htie (ne_of_lt (abs_lt.2 ⟨by linarith, by linarith⟩))
  · exact ⟨le_rfl, fun hne => absurd rfl hne⟩
  · have hmid : q ≤ (units16 n : ℚ) + units16 (n + 1) := by exact_mod_cast le_midpoint_of_not_roundsAbove hup
    have hu : (units16 (n + 1) : ℚ) ≤ units16 u := by exact_mod_cast units16_strictMono.monotone hgt
    have hn : (units16 n : ℚ) < units16 (n + 1) := by exact_mod_cast units16_strictMono (Nat.lt_add_one n)
    have hright : |2 * (units16 u : ℚ) - q| = 2 * units16 u - q := abs_of_nonneg (by linarith)
    rw [hright]
    refine ⟨abs_le.2 ⟨by linarith, by linarith⟩, fun _ htie => ?_⟩
    by_contra hodd
    have hstrict := not_le.1 (mt (roundsAbove_iff_of_odd (k := n) (by omega) q).2 hup)
    rw [midpoint16, Nat.cast_add] at hstrict
    exact absurd htie (ne_of_lt (abs_lt.2 ⟨by linarith, by linarith⟩))

/-- The rounding is within half a unit in the last place (R70). -/
theorem RoundsTo.error_le {n : Nat} {q : ℚ} (h : RoundsTo n q) (hq : 0 ≤ q) :
    |2 * (units16 n : ℚ) - q| ≤ 2 ^ (n / 2 ^ 10 - 1) := by
  obtain ⟨hlow, hup⟩ := h
  refine abs_le.2 ⟨?_, ?_⟩
  · have hmid := le_midpoint_of_not_roundsAbove hup
    rw [midpoint16, units16_succ] at hmid
    push_cast at hmid
    linarith
  · cases n with
    | zero =>
      rw [show units16 0 = 0 from rfl, Nat.cast_zero]
      exact le_trans (by linarith) (zero_le_one.trans (one_le_pow₀ one_le_two))
    | succ p =>
      have hmid := (hlow p (Nat.lt_add_one p)).midpoint_le
      have hulp : (2 : ℚ) ^ (p / 2 ^ 10 - 1) ≤ 2 ^ ((p + 1) / 2 ^ 10 - 1) := pow_le_pow_right₀ one_le_two (by omega)
      rw [midpoint16] at hmid
      rw [units16_succ] at hmid ⊢
      push_cast at hmid ⊢
      linarith

/-- Patterns are at least as far apart from a real number as their magnitudes are (R44). -/
theorem abs_units_sub_le {h : Word16} {z : ℚ} (hz : value16 h = .finite z) (x : ℚ) :
    |2 * (units16 (magnitude16 h) : ℚ) - |x| * 2 ^ 25| ≤ |z - x| * 2 ^ 25 := by
  obtain ⟨-, hval⟩ := (value16_eq_finite_iff_units h z).1 hz
  have habs : |z| = (units16 (magnitude16 h) : ℚ) / 2 ^ 24 := by
    rw [hval, abs_mul, abs_neg_one_pow, one_mul, abs_of_nonneg (by positivity)]
  have hscale : 2 * (units16 (magnitude16 h) : ℚ) - |x| * 2 ^ 25 = (|z| - |x|) * 2 ^ 25 := by rw [habs]; ring
  rw [hscale, abs_mul, abs_of_pos (show (0 : ℚ) < 2 ^ 25 by positivity)]
  exact mul_le_mul_of_nonneg_right (abs_abs_sub_abs_le z x) (by positivity)

/-- The result of NARROW has the sign of the operand, so that their distance is that of the magnitudes (R65). -/
theorem abs_sub_of_narrow16 {fix : NanFix} {a : Word32} {x y : ℚ} (hx : value32 a = .finite x)
    (hy : value16 (narrow16 fix a) = .finite y) :
    |y - x| * 2 ^ 25 = |2 * (units16 (magnitude16 (narrow16 fix a)) : ℚ) - |x| * 2 ^ 25| := by
  obtain ⟨-, hval⟩ := (value16_eq_finite_iff_units _ y).1 hy
  have hscale : y - x = (-1) ^ sign32 a * ((2 * (units16 (magnitude16 (narrow16 fix a)) : ℚ) - |x| * 2 ^ 25) / 2 ^ 25) := by
    conv_lhs => rw [hval, (narrow16_fields fix a).1, eq_sign_mul_abs hx]
    ring
  rw [hscale, abs_mul, abs_neg_one_pow, one_mul, abs_div, abs_of_pos (show (0 : ℚ) < 2 ^ 25 by positivity),
    div_mul_cancel₀ _ (by positivity)]

/-- Settles O28: half a unit in the last place of the result's own magnitude. -/
theorem narrowErrorAtMostHalfUlp : Obligations.NarrowErrorAtMostHalfUlp := by
  intro fix a x y hx hy
  have hn := ((value16_eq_finite_iff_units _ y).1 hy).1
  have herr := (roundsTo_narrow16 fix hx hn).error_le (by positivity)
  rw [← abs_sub_of_narrow16 hx hy] at herr
  rw [ulp16_eq]
  linarith

/-! ### Infinities -/

/-- The formats' values that are no real number, by class and sign (R44). -/
theorem Format.value_eq_infinite_iff (f : Format) (s e m : Nat) :
    (f.value s e m = .posInf ↔ f.classify e m = .infinity ∧ s = 0) ∧
    (f.value s e m = .negInf ↔ f.classify e m = .infinity ∧ s ≠ 0) ∧
    (f.value s e m = .noValue ↔ f.classify e m = .nan) := by
  unfold Format.value
  cases f.classify e m with
  | infinity => by_cases hs : s = 0 <;> simp [hs]
  | zero => simp
  | subnormal => simp
  | normal => simp
  | nan => simp

theorem class32_eq_infinity_iff (a : Word32) : class32 a = .infinity ↔ exp32 a = 255 ∧ man32 a = 0 := by
  rw [class32, (binary32.classify_cases _ _).2]
  exact ⟨fun ⟨_, he, hm⟩ => ⟨he, hm⟩, fun ⟨he, hm⟩ => ⟨by omega, he, hm⟩⟩

theorem class32_eq_nan_iff (a : Word32) : class32 a = .nan ↔ exp32 a = 255 ∧ man32 a ≠ 0 := by
  rw [class32, (binary32.classify_cases _ _).1]
  exact ⟨fun ⟨_, he, hm⟩ => ⟨he, hm⟩, fun ⟨he, hm⟩ => ⟨by omega, he, hm⟩⟩

/-- Infinities narrow to infinities of their sign (R54). -/
theorem narrow16_of_value_infinite (fix : NanFix) (a : Word32) :
    (value32 a = .posInf → narrow16 fix a = pack16 0 0x7C00) ∧ (value32 a = .negInf → narrow16 fix a = pack16 1 0x7C00) := by
  have hlt := sign32_lt a
  refine ⟨fun h => ?_, fun h => ?_⟩
  · obtain ⟨hcls, hs⟩ := (binary32.value_eq_infinite_iff _ _ _).1.1 h
    obtain ⟨he, hm⟩ := (class32_eq_infinity_iff a).1 hcls
    rw [narrow16_of_infinity fix he hm, hs]
  · obtain ⟨hcls, hs⟩ := (binary32.value_eq_infinite_iff _ _ _).2.1.1 h
    obtain ⟨he, hm⟩ := (class32_eq_infinity_iff a).1 hcls
    rw [narrow16_of_infinity fix he hm, show sign32 a = 1 by omega]

/-- A real value that is not zero shows its sign bit (R44). -/
theorem sign32_of_value {a : Word32} {x : ℚ} (hx : value32 a = .finite x) :
    (0 < x → sign32 a = 0) ∧ (x < 0 → sign32 a = 1) := by
  have hval := eq_sign_mul_abs hx
  have habs := abs_nonneg x
  obtain hs | hs : sign32 a = 0 ∨ sign32 a = 1 := by have := sign32_lt a; omega
  · rw [hs, pow_zero, one_mul] at hval
    exact ⟨fun _ => hs, fun hneg => by linarith⟩
  · rw [hs, pow_one, neg_one_mul] at hval
    exact ⟨fun hpos => by linarith, fun _ => hs⟩

/-- Real values from magnitude 65520 narrow to infinities of their sign (R63, C1). -/
theorem narrow16_of_large (fix : NanFix) {a : Word32} {x : ℚ} (hx : value32 a = .finite x) :
    (x ≥ 65520 → narrow16 fix a = pack16 0 0x7C00) ∧ (x ≤ -65520 → narrow16 fix a = pack16 1 0x7C00) := by
  obtain ⟨hpos, hneg⟩ := sign32_of_value hx
  obtain ⟨hbig, -, -⟩ := narrowRoundingCarry fix a x hx
  refine ⟨fun h => ?_, fun h => ?_⟩
  · rw [hbig (h.trans (le_abs_self x)), hpos (by linarith)]
  · rw [hbig (le_trans (by linarith) (neg_le_abs x)), hneg (by linarith)]

/-- Below magnitude 65520 the result is finite (R63, C1). -/
theorem magnitude16_narrow16_lt (fix : NanFix) {a : Word32} {x : ℚ} (hx : value32 a = .finite x) (h : |x| < 65520) :
    magnitude16 (narrow16 fix a) < 0x7C00 := by
  have hnot : ¬RoundsAbove 0x7BFF (|x| * 2 ^ 25) := not_roundsAbove_of_lt (by
    rw [midpoint16_boundaries.2.2.2.2]; push_cast; linarith)
  have hle := mt (lt_narrowMagnitude_iff fix hx (by omega)).1 hnot
  rw [magnitude16_narrow16]
  omega

/-! ### To nearest, ties to even -/

/-- Two binary16 values of the same magnitude differ in sign at most. -/
theorem eq_or_eq_neg_of_magnitude16_eq {h k : Word16} {z y : ℚ} (hz : value16 h = .finite z) (hy : value16 k = .finite y)
    (hmag : magnitude16 h = magnitude16 k) : z = y ∨ z = -y := by
  obtain ⟨-, hz⟩ := (value16_eq_finite_iff_units h z).1 hz
  obtain ⟨-, hy⟩ := (value16_eq_finite_iff_units k y).1 hy
  rw [hz, hy, hmag]
  rcases neg_one_pow_eq_or ℚ (sign16 h) with h1 | h1 <;> rcases neg_one_pow_eq_or ℚ (sign16 k) with h2 | h2 <;>
    simp [h1, h2]

/-- A finite result is a nearest binary16 value, and on a tie with another value its mantissa is even (R69). -/
theorem narrow16_nearest {fix : NanFix} {a : Word32} {x y : ℚ} (hx : value32 a = .finite x)
    (hy : value16 (narrow16 fix a) = .finite y) {h : Word16} {z : ℚ} (hz : value16 h = .finite z) :
    |y - x| ≤ |z - x| ∧ (z ≠ y → |y - x| = |z - x| → man16 (narrow16 fix a) % 2 = 0) := by
  have hround := roundsTo_narrow16 fix hx ((value16_eq_finite_iff_units _ y).1 hy).1
  obtain ⟨hnear, htie⟩ := hround.nearest (magnitude16 h)
  have hfar := abs_units_sub_le hz x
  rw [← abs_sub_of_narrow16 hx hy] at hnear htie
  refine ⟨by linarith, fun hne heq => ?_⟩
  rw [← magnitude16_mod, Nat.mod_mod_of_dvd _ (by norm_num)]
  by_cases hmag : magnitude16 h = magnitude16 (narrow16 fix a)
  · have hneg := (eq_or_eq_neg_of_magnitude16_eq hz hy hmag).resolve_left hne
    rw [hneg, abs_eq_abs] at heq
    have hx0 : x = 0 := by
      rcases heq with h1 | h1
      · exact absurd (by linarith : z = y) hne
      · linarith
    by_contra hodd
    have hfirst := (hround.1 0 (by omega)).midpoint_le
    rw [midpoint16_boundaries.1, hx0] at hfirst
    norm_num at hfirst
  · exact htie hmag (le_antisymm hnear (by rw [heq]; exact hfar))

/-- Settles O26: the infinities, the overflow boundary, and the rounding below it. -/
theorem narrowRoundsToNearestEven : Obligations.NarrowRoundsToNearestEven := by
  intro fix a
  obtain ⟨hpos, hneg⟩ := narrow16_of_value_infinite fix a
  refine ⟨(narrow16_fields fix a).1, fun h => by rw [hpos h]; rfl, fun h => by rw [hneg h]; rfl,
    fun x hx h => by rw [(narrow16_of_large fix hx).1 h]; rfl, fun x hx h => by rw [(narrow16_of_large fix hx).2 h]; rfl,
    fun x hx hsmall => ?_⟩
  have hy := (value16_eq_finite_iff_units (narrow16 fix a) _).2 ⟨magnitude16_narrow16_lt fix hx hsmall, rfl⟩
  exact ⟨_, hy, fun h z hz => narrow16_nearest hx hy hz⟩

/-! ### The order of values -/

/-- A pattern's value in units of `2^−24`, an infinity read as `±2^16`. -/
def signedUnits16 (h : Word16) : ℤ := (-1) ^ sign16 h * (units16 (magnitude16 h) : ℤ)

/-- The value that a number of units of `2^−24` stands for. -/
def valueOfUnits (u : ℤ) : FloatValue :=
  if u = 2 ^ 40 then .posInf else if u = -2 ^ 40 then .negInf else .finite (u / 2 ^ 24)

theorem units16_of_infinity : units16 0x7C00 = 2 ^ 40 := by
  norm_num [units16, significand]

theorem units16_le {n : Nat} (h : n ≤ 0x7C00) : units16 n ≤ 2 ^ 40 :=
  units16_of_infinity ▸ units16_strictMono.monotone h

theorem abs_signedUnits16 (h : Word16) : |signedUnits16 h| = units16 (magnitude16 h) := by
  rw [signedUnits16, abs_mul, abs_neg_one_pow, one_mul, Nat.abs_cast]

theorem abs_signedUnits16_le {h : Word16} (hh : magnitude16 h ≤ 0x7C00) : |signedUnits16 h| ≤ 2 ^ 40 := by
  rw [abs_signedUnits16]
  exact_mod_cast units16_le hh

/-- A pattern that is no NaN has the value its units stand for (R44). -/
theorem value16_eq_valueOfUnits {h : Word16} (hh : magnitude16 h ≤ 0x7C00) : value16 h = valueOfUnits (signedUnits16 h) := by
  rcases hh.lt_or_eq with hlt | hinf
  · have habs : |signedUnits16 h| < 2 ^ 40 := by
      rw [abs_signedUnits16]
      exact_mod_cast units16_of_infinity ▸ units16_strictMono hlt
    obtain ⟨hlo, hhi⟩ := abs_lt.1 habs
    rw [valueOfUnits, if_neg (by omega), if_neg (by omega), (value16_eq_finite_iff_units h _).2 ⟨hlt, rfl⟩, signedUnits16]
    push_cast
    rw [mul_div_assoc]
  · have hcls : class16 h = .infinity := by
      refine (binary16.classify_cases _ _).2.2 ?_
      rw [← magnitude16_div, ← magnitude16_mod, hinf]
      decide
    obtain ⟨hpos, hneg, -⟩ := binary16.value_eq_infinite_iff (sign16 h) (exp16 h) (man16 h)
    obtain hs | hs : sign16 h = 0 ∨ sign16 h = 1 := by have := sign16_lt h; omega
    · rw [value16, hpos.2 ⟨hcls, hs⟩, signedUnits16, hs, hinf, units16_of_infinity]
      rfl
    · rw [value16, hneg.2 ⟨hcls, by omega⟩, signedUnits16, hs, hinf, units16_of_infinity]
      rfl

/-- Values are ordered as the units they stand for. -/
theorem valueOfUnits_le {u v : ℤ} (hu : |u| ≤ 2 ^ 40) (hv : |v| ≤ 2 ^ 40) (huv : u ≤ v) :
    (valueOfUnits u).le (valueOfUnits v) := by
  have hfin : (u : ℚ) / 2 ^ 24 ≤ (v : ℚ) / 2 ^ 24 := by gcongr
  obtain ⟨hu1, hu2⟩ := abs_le.1 hu
  obtain ⟨hv1, hv2⟩ := abs_le.1 hv
  unfold valueOfUnits
  split
  · rw [if_pos (by omega)]; trivial
  · split
    · split
      · trivial
      · split
        · trivial
        · trivial
    · split
      · trivial
      · rw [if_neg (by omega)]; exact hfin

/-! ### NARROW keeps the order -/

theorem signedUnits16_narrow16 (fix : NanFix) (a : Word32) :
    signedUnits16 (narrow16 fix a) = (-1) ^ sign32 a * (units16 (narrowMagnitude fix (exp32 a) (man32 a)) : ℤ) := by
  rw [signedUnits16, (narrow16_fields fix a).1, magnitude16_narrow16]

/-- A smaller magnitude narrows to no larger one. -/
theorem narrowMagnitude_mono (fix : NanFix) {a b : Word32} {x y : ℚ} (hx : value32 a = .finite x) (hy : value32 b = .finite y)
    (hxy : |x| ≤ |y|) : narrowMagnitude fix (exp32 a) (man32 a) ≤ narrowMagnitude fix (exp32 b) (man32 b) := by
  by_contra hgt
  have hlt : narrowMagnitude fix (exp32 b) (man32 b) < 0x7C00 :=
    lt_of_lt_of_le (not_le.1 hgt) (narrowMagnitude_le fix (.inl (abs_of_value32 hx).1))
  have habove := ((lt_narrowMagnitude_iff fix hx hlt).1 (not_le.1 hgt)).mono (mul_le_mul_of_nonneg_right hxy (by positivity))
  exact lt_irrefl _ ((lt_narrowMagnitude_iff fix hy hlt).2 habove)

/-- Zeros narrow to zeros (R59). -/
theorem units16_narrow_of_zero (fix : NanFix) {a : Word32} (hx : value32 a = .finite 0) :
    units16 (narrowMagnitude fix (exp32 a) (man32 a)) = 0 := by
  have hnot : ¬RoundsAbove 0 (|(0 : ℚ)| * 2 ^ 25) :=
    not_roundsAbove_of_lt (by rw [midpoint16_boundaries.1]; norm_num)
  rw [Nat.eq_zero_of_not_pos (mt (lt_narrowMagnitude_iff fix hx (by omega)).1 hnot)]
  rfl

/-- On real operands the signs decide first, and under the same sign the magnitudes. -/
theorem signedUnits16_narrow16_mono (fix : NanFix) {a b : Word32} {x y : ℚ} (hx : value32 a = .finite x)
    (hy : value32 b = .finite y) (hxy : x ≤ y) : signedUnits16 (narrow16 fix a) ≤ signedUnits16 (narrow16 fix b) := by
  have hmono := fun h => units16_strictMono.monotone (narrowMagnitude_mono fix hx hy h)
  have hmono' := fun h => units16_strictMono.monotone (narrowMagnitude_mono fix hy hx h)
  have hzero := fun h : x = 0 => units16_narrow_of_zero fix (h ▸ hx)
  have hzero' := fun h : y = 0 => units16_narrow_of_zero fix (h ▸ hy)
  have hvx := eq_sign_mul_abs hx
  have hvy := eq_sign_mul_abs hy
  have hx0 := abs_nonneg x
  have hy0 := abs_nonneg y
  rw [signedUnits16_narrow16, signedUnits16_narrow16]
  generalize units16 (narrowMagnitude fix (exp32 a) (man32 a)) = A at *
  generalize units16 (narrowMagnitude fix (exp32 b) (man32 b)) = B at *
  obtain hs | hs : sign32 a = 0 ∨ sign32 a = 1 := by have := sign32_lt a; omega
  · obtain ht | ht : sign32 b = 0 ∨ sign32 b = 1 := by have := sign32_lt b; omega
    · rw [hs, pow_zero, one_mul] at hvx ⊢
      rw [ht, pow_zero, one_mul] at hvy ⊢
      have := hmono (by linarith)
      omega
    · rw [hs, pow_zero, one_mul] at hvx ⊢
      rw [ht, pow_one, neg_one_mul] at hvy ⊢
      have := hzero (by linarith)
      have := hzero' (by linarith)
      omega
  · obtain ht | ht : sign32 b = 0 ∨ sign32 b = 1 := by have := sign32_lt b; omega
    · rw [hs, ht, pow_zero, pow_one]
      omega
    · rw [hs, pow_one, neg_one_mul] at hvx ⊢
      rw [ht, pow_one, neg_one_mul] at hvy ⊢
      have := hmono' (by linarith)
      omega

/-- An operand that is no NaN narrows to a pattern that is none (R55). -/
theorem magnitude16_narrow16_le (fix : NanFix) {a : Word32} (h : value32 a ≠ .noValue) :
    magnitude16 (narrow16 fix a) ≤ 0x7C00 := by
  rw [magnitude16_narrow16]
  refine narrowMagnitude_le fix ?_
  by_contra hnan
  have hcls : class32 a = .nan := (class32_eq_nan_iff a).2 (by omega)
  exact h ((binary32.value_eq_infinite_iff _ _ _).2.2.2 hcls)

/-- Comparable values: an infinity bounds the other, or both are real (R44, R70). -/
theorem FloatValue.le_cases {v w : FloatValue} (h : v.le w) :
    v ≠ .noValue ∧ w ≠ .noValue ∧ (v = .negInf ∨ w = .posInf ∨ ∃ x y, v = .finite x ∧ w = .finite y ∧ x ≤ y) := by
  cases v with
  | negInf => cases w <;> simp_all [FloatValue.le]
  | posInf => cases w <;> simp_all [FloatValue.le]
  | noValue => exact h.elim
  | finite x => cases w <;> simp_all [FloatValue.le]

/-- Settles O27: the infinities bound every result, and between them the order of real values decides. -/
theorem narrowIsMonotonic : Obligations.NarrowIsMonotonic := by
  intro fix a b hle
  obtain ⟨hna, hnb, hcases⟩ := FloatValue.le_cases hle
  have ha := magnitude16_narrow16_le fix hna
  have hb := magnitude16_narrow16_le fix hnb
  have hboundA := abs_signedUnits16_le ha
  have hboundB := abs_signedUnits16_le hb
  rw [value16_eq_valueOfUnits ha, value16_eq_valueOfUnits hb]
  refine valueOfUnits_le hboundA hboundB ?_
  obtain hinf | hinf | ⟨x, y, hx, hy, hxy⟩ := hcases
  · rw [(narrow16_of_value_infinite fix a).2 hinf, show signedUnits16 (pack16 1 0x7C00) = -2 ^ 40 by decide]
    exact (abs_le.1 hboundB).1
  · rw [(narrow16_of_value_infinite fix b).1 hinf, show signedUnits16 (pack16 0 0x7C00) = 2 ^ 40 by decide]
    exact (abs_le.1 hboundA).2
  · exact signedUnits16_narrow16_mono fix hx hy hxy

end Sys2Proof.Machine
end

section
/-! PROOF. WIDEN is exact and injective, and NARROW undoes it (41_widen.md R75, R78; 42_quantize.md R83). -/

namespace Sys2Proof.Machine

/-! ### Widening keeps the value -/

/-- Between two powers of two there is one leading 1, and `topBit` finds it (R75). -/
theorem topBit_eq {m p : Nat} (hm : m < 2 ^ 10) (hlo : 2 ^ p ≤ m) (hhi : m < 2 ^ (p + 1)) : topBit m 9 = p := by
  have hpos := Nat.two_pow_pos p
  obtain ⟨-, hlo', hhi'⟩ := topBit_spec (show m ≠ 0 by omega) 9 hm
  have hle : topBit m 9 < p + 1 := (Nat.pow_lt_pow_iff_right (by omega)).1 (hlo'.trans_lt hhi)
  have hge : p < topBit m 9 + 1 := (Nat.pow_lt_pow_iff_right (by omega)).1 (hlo.trans_lt hhi')
  omega

/-- The fields of a widened subnormal: renormalised at its leading 1 (R75). -/
theorem widen32_fields_of_subnormal {h : Word16} {p : Nat} (he : exp16 h = 0) (hlo : 2 ^ p ≤ man16 h)
    (hhi : man16 h < 2 ^ (p + 1)) :
    p ≤ 9 ∧ sign32 (widen32 h) = sign16 h ∧ exp32 (widen32 h) = 103 + p ∧
      man32 (widen32 h) = (man16 h - 2 ^ p) * 2 ^ (23 - p) := by
  have hpos := Nat.two_pow_pos p
  have htop := topBit_eq (man16_lt h) hlo hhi
  have hp9 : p ≤ 9 := htop ▸ (topBit_spec (show man16 h ≠ 0 by omega) 9 (man16_lt h)).1
  refine ⟨hp9, widen32_fields_of_magnitude (dropLeadingOne_lt hp9 hhi) ?_⟩
  rw [widenMagnitude_eq _ (man16_lt h), if_neg (by omega), if_pos he, if_neg (by omega), htop]

/-- A widened subnormal has the value of its mantissa in units of `2^−24` (R75). -/
theorem value32_widen32_of_subnormal {h : Word16} {p : Nat} (he : exp16 h = 0) (hlo : 2 ^ p ≤ man16 h)
    (hhi : man16 h < 2 ^ (p + 1)) :
    value32 (widen32 h) = .finite ((-1) ^ sign16 h * ((man16 h : ℚ) / 2 ^ 24)) := by
  obtain ⟨hp9, hsign, hexp, hman⟩ := widen32_fields_of_subnormal he hlo hhi
  have hsig : significand 23 (103 + p) ((man16 h - 2 ^ p) * 2 ^ (23 - p)) = man16 h * 2 ^ (23 - p) := by
    have hsplit : 2 ^ p * 2 ^ (23 - p) = 2 ^ 23 := by rw [← pow_add]; congr 1; omega
    rw [significand, if_neg (by omega), ← hsplit, ← Nat.add_mul, Nat.sub_add_cancel hlo]
  have hscale : (2 : ℚ) ^ (23 - p) * 2 ^ ((max (103 + p) 1 : ℕ) - 150 : ℤ) = 1 / 2 ^ 24 := by
    rw [← zpow_natCast, ← zpow_add₀ two_ne_zero, show ((23 - p : ℕ) : ℤ) + ((max (103 + p) 1 : ℕ) - 150) = -24 by omega]
    norm_num
  rw [value32_of_fields hsign hexp hman (by omega), hsig]
  rw [Nat.cast_mul, Nat.cast_pow, Nat.cast_ofNat, mul_assoc, mul_assoc, hscale, mul_one_div]

/-- Settles O31: the fields of a widened subnormal, and their value. -/
theorem widenRenormalisesSubnormals : Obligations.WidenRenormalisesSubnormals := by
  intro h p he hlo hhi
  obtain ⟨-, hsign, hexp, hman⟩ := widen32_fields_of_subnormal he hlo hhi
  exact ⟨hsign, hexp, hman, value32_widen32_of_subnormal he hlo hhi⟩

/-- A widened normal has its value: 13 more mantissa bits, and an exponent rebiased for them (R77). -/
theorem value32_widen32_of_normal {h : Word16} (hlo : 1 ≤ exp16 h) (hhi : exp16 h ≤ 30) : value32 (widen32 h) = value16 h := by
  obtain ⟨hsign, hexp, hman⟩ := widen32_fields_of_normal hlo hhi
  have hsig : significand 23 (exp16 h + 112) (man16 h * 2 ^ 13) = significand 10 (exp16 h) (man16 h) * 2 ^ 13 := by
    rw [significand, significand, if_neg (by omega), if_neg (by omega)]; ring
  have hscale : (2 : ℚ) ^ 13 * 2 ^ ((max (exp16 h + 112) 1 : ℕ) - 150 : ℤ) = 2 ^ ((max (exp16 h) 1 : ℕ) - 25 : ℤ) := by
    rw [← zpow_natCast, ← zpow_add₀ two_ne_zero]
    congr 1
    omega
  rw [value32_of_fields hsign hexp hman (by omega), value16_of_fields rfl rfl rfl (by omega), hsig]
  rw [Nat.cast_mul, Nat.cast_pow, Nat.cast_ofNat, ← mul_assoc, mul_assoc, hscale]

/-- With the exponent field all ones the mantissa and the sign decide the value (R44). -/
theorem Format.value_of_special (f : Format) (s m : Nat) (hw : 2 ^ f.expBits - 1 ≠ 0) :
    f.value s (2 ^ f.expBits - 1) m = if m = 0 then (if s = 0 then .posInf else .negInf) else .noValue := by
  rw [Format.value, Format.classify, if_neg hw, if_pos rfl]
  by_cases hm : m = 0
  · simp [hm]
  · simp [hm]

/-- A widened infinity or NaN has the value, or none, of what it was widened from (R76). -/
theorem value32_widen32_of_special {h : Word16} (he : exp16 h = 31) : value32 (widen32 h) = value16 h := by
  obtain ⟨hsign, hexp, hman⟩ := widen32_fields_of_special he
  have h32 := binary32.value_of_special (sign16 h) (man16 h * 2 ^ 13) (by decide)
  have h16 := binary16.value_of_special (sign16 h) (man16 h) (by decide)
  have hzero : man16 h * 2 ^ 13 = 0 ↔ man16 h = 0 := by omega
  rw [value32, value16, hsign, hexp, hman, he]
  refine h32.trans (Eq.trans ?_ h16.symm)
  simp only [hzero]

/-- Widening keeps the value of every pattern (R78). -/
theorem value32_widen32 (h : Word16) : value32 (widen32 h) = value16 h := by
  have hlt := exp16_lt h
  by_cases h31 : exp16 h = 31
  · exact value32_widen32_of_special h31
  by_cases h0 : exp16 h = 0
  · by_cases hm : man16 h = 0
    · obtain ⟨hsign, hexp, hman⟩ := widen32_fields_of_zero h0 hm
      rw [value32_of_fields hsign hexp hman (by omega), value16_of_fields rfl h0 hm (by omega)]
      simp [significand]
    · obtain ⟨-, hlo, hhi⟩ := topBit_spec hm 9 (man16_lt h)
      rw [value32_widen32_of_subnormal h0 hlo hhi, value16_of_fields rfl h0 rfl (by omega), significand, if_pos rfl]
      norm_num [zpow_neg, div_eq_mul_inv, mul_assoc]
  · exact value32_widen32_of_normal (by omega) (by omega)

/-! ### Narrowing undoes widening -/

/-- A magnitude's own value rounds to it: it is below the midpoint above it, and above every one below it. -/
theorem roundsAbove_units_iff (k n : Nat) : RoundsAbove k (2 * units16 n) ↔ k < n := by
  constructor
  · intro habove
    by_contra hge
    have hmid : 2 * units16 n < midpoint16 k := by
      have h1 := units16_strictMono.monotone (not_lt.1 hge)
      have h2 := units16_strictMono (Nat.lt_add_one k)
      rw [midpoint16]; omega
    exact not_roundsAbove_of_lt (by exact_mod_cast hmid) habove
  · intro hlt
    exact .inl (by exact_mod_cast midpoint16_lt_of_lt hlt)

theorem eq_of_sign_magnitude16 {h k : Word16} (hs : sign16 h = sign16 k) (hm : magnitude16 h = magnitude16 k) : h = k :=
  eq_of_fields16 hs (by rw [← magnitude16_div, hm, magnitude16_div]) (by rw [← magnitude16_mod, hm, magnitude16_mod])

/-- NARROW gives back a finite binary16 pattern that was widened, by rounding its exact value (R83). -/
theorem narrow16_widen32_of_finite (fix : NanFix) {h : Word16} (hfin : magnitude16 h < 0x7C00) : narrow16 fix (widen32 h) = h := by
  have hval := (value16_eq_finite_iff_units h _).2 ⟨hfin, rfl⟩
  have hx := (value32_widen32 h).trans hval
  have hq : |(-1) ^ sign16 h * ((units16 (magnitude16 h) : ℚ) / 2 ^ 24)| * 2 ^ 25 = 2 * (units16 (magnitude16 h) : ℚ) := by
    rw [abs_mul, abs_neg_one_pow, one_mul, abs_of_nonneg (by positivity)]; ring
  have habove := fun (k : Nat) (hk : k < 0x7C00) => lt_narrowMagnitude_iff fix hx hk
  simp only [hq, roundsAbove_units_iff] at habove
  refine eq_of_sign_magnitude16 ((narrow16_fields fix _).1.trans (widen32_fields h).1) ?_
  rw [magnitude16_narrow16]
  have hle := mt (habove (magnitude16 h) hfin).1 (lt_irrefl _)
  rcases Nat.eq_zero_or_pos (magnitude16 h) with h0 | hpos
  · omega
  · have hge := (habove (magnitude16 h - 1) (by omega)).2 (by omega)
    omega

/-- NARROW gives back an infinity that was widened, and a NaN whose fragment its `NAN_FIX` leaves as it is (R83). -/
theorem narrow16_widen32_of_special {fix : NanFix} {h : Word16} (he : exp16 h = 31)
    (hfix : man16 h ≠ 0 → fixNan fix (man16 h) = man16 h) : narrow16 fix (widen32 h) = h := by
  obtain ⟨hsign, hexp, hman⟩ := widen32_fields_of_special he
  refine eq_of_sign_magnitude16 ((narrow16_fields fix _).1.trans hsign) ?_
  rw [magnitude16_narrow16, hexp, hman, narrowMagnitude, if_pos rfl, narrowSpecial_eq fix (man16_mul_lt h), magnitude16, he]
  by_cases hm : man16 h = 0
  · rw [hm]; rfl
  · rw [if_neg (by omega), Nat.mul_div_cancel _ (by omega), hfix hm]

theorem magnitude16_lt_iff (h : Word16) : magnitude16 h < 0x7C00 ↔ exp16 h ≠ 31 := by
  have he := exp16_lt h
  have hm := man16_lt h
  rw [magnitude16]; omega

/-- NARROW undoes WIDEN on every pattern, if its `NAN_FIX` leaves the fragment of a NaN as it is (R83). -/
theorem narrow16_widen32 {fix : NanFix} {h : Word16} (hfix : exp16 h = 31 → man16 h ≠ 0 → fixNan fix (man16 h) = man16 h) :
    narrow16 fix (widen32 h) = h := by
  by_cases he : exp16 h = 31
  · exact narrow16_widen32_of_special he (hfix he)
  · exact narrow16_widen32_of_finite fix ((magnitude16_lt_iff h).2 he)

theorem class16_eq_nan_iff (h : Word16) : class16 h = .nan ↔ exp16 h = 31 ∧ man16 h ≠ 0 := by
  rw [class16, (binary16.classify_cases _ _).1]
  exact ⟨fun ⟨_, he, hm⟩ => ⟨he, hm⟩, fun ⟨he, hm⟩ => ⟨by omega, he, hm⟩⟩

theorem narrow16_setLsbIfZero_widen32 (h : Word16) : narrow16 .setLsbIfZero (widen32 h) = h :=
  narrow16_widen32 fun _ hm => by rw [fixNan, if_pos hm]

/-- What NARROW returns has a fragment that its `NAN_FIX` leaves as it is: forcing it again changes nothing (R83). -/
theorem narrow16_widen32_narrow16 (fix : NanFix) (a : Word32) : narrow16 fix (widen32 (narrow16 fix a)) = narrow16 fix a := by
  refine narrow16_widen32 fun he hm => ?_
  have hcls : exp32 a = 255 ∧ man32 a ≠ 0 := by
    by_contra hnan
    have hle := narrowMagnitude_le fix (a := a) (by omega)
    rw [← magnitude16_narrow16, magnitude16, he] at hle
    omega
  rw [(narrow16_fields_of_nan fix hcls.1 hcls.2).2, fixNan_idempotent]

theorem testBit_man16 (h : Word16) {i : Nat} (hi : i < 10) : (man16 h).testBit i = h.getLsbD i := by
  rw [man16_eq, Nat.testBit_mod_two_pow, decide_eq_true hi, Bool.true_and, BitVec.getLsbD]

/-- Setting a bit that is set changes nothing. -/
theorem or_two_pow_of_testBit {m i : Nat} (h : m.testBit i = true) : m ||| 2 ^ i = m := by
  apply Nat.eq_of_testBit_eq
  intro j
  rw [Nat.testBit_or, Nat.testBit_two_pow]
  by_cases hij : i = j
  · rw [← hij, h, Bool.true_or]
  · rw [decide_eq_false hij, Bool.or_false]

/-- Settles O33: each clause gives a fragment that its `NAN_FIX` leaves as it is. -/
theorem narrowUndoesWiden : Obligations.NarrowUndoesWiden := by
  refine ⟨fun fix h hcls => narrow16_widen32 fun he hm => absurd ((class16_eq_nan_iff h).2 ⟨he, hm⟩) hcls,
    narrow16_setLsbIfZero_widen32, fun h _ hbit => narrow16_widen32 fun _ _ => ?_,
    fun h _ hbit => narrow16_widen32 fun _ _ => ?_, narrow16_widen32_narrow16⟩
  · exact or_two_pow_of_testBit ((testBit_man16 h (i := 0) (by omega)).trans hbit)
  · exact or_two_pow_of_testBit ((testBit_man16 h (i := 9) (by omega)).trans hbit)

/-- Settles O32: widening keeps values, and narrowing under `SET_LSB_IF_ZERO` undoes it. -/
theorem widenIsExactAndInjective : Obligations.WidenIsExactAndInjective :=
  ⟨value32_widen32, fun _ _ heq => Function.LeftInverse.injective narrow16_setLsbIfZero_widen32 heq⟩

end Sys2Proof.Machine
end

section
/-! PROOF. QHALF: idempotent, and what it does to NaNs and at its overflow boundary (42_quantize.md R82, R85, R86); and the sign bit
of all three conversions (40_narrow.md R65, 41_widen.md R73, 42_quantize.md R84). -/

namespace Sys2Proof.Machine

/-! ### The sign bit -/

theorem getLsbD_eq_sign32 (a : Word32) : a.getLsbD 31 = decide (sign32 a = 1) := by
  rw [sign32_eq, BitVec.getLsbD, Nat.testBit_eq_decide_div_mod_eq]

theorem getLsbD_eq_sign16 (h : Word16) : h.getLsbD 15 = decide (sign16 h = 1) := by
  rw [sign16_eq, BitVec.getLsbD, Nat.testBit_eq_decide_div_mod_eq]

theorem narrow16_getLsbD_sign (fix : NanFix) (a : Word32) : (narrow16 fix a).getLsbD 15 = a.getLsbD 31 := by
  rw [getLsbD_eq_sign16, getLsbD_eq_sign32, (narrow16_fields fix a).1]

theorem widen32_getLsbD_sign (h : Word16) : (widen32 h).getLsbD 31 = h.getLsbD 15 := by
  rw [getLsbD_eq_sign16, getLsbD_eq_sign32, (widen32_fields h).1]

/-- Settles O25: the sign field of each result is that of its operand, and QHALF is the two in a row. -/
theorem conversionsKeepTheSign : Obligations.ConversionsKeepTheSign :=
  fun fix => ⟨narrow16_getLsbD_sign fix, widen32_getLsbD_sign,
    fun a => (widen32_getLsbD_sign _).trans (narrow16_getLsbD_sign fix a)⟩

/-! ### QHALF -/

/-- Settles O34: what NARROW returned comes back from the second NARROW. -/
theorem qhalfIsIdempotent : Obligations.QhalfIsIdempotent := by
  intro fix a
  rw [qhalf, qhalf, narrow16_widen32_narrow16]

/-- The fields of a quantized NaN (R85). -/
theorem qhalf_fields_of_nan (fix : NanFix) {a : Word32} (he : exp32 a = 255) (hm : man32 a ≠ 0) :
    sign32 (qhalf fix a) = sign32 a ∧ exp32 (qhalf fix a) = 255 ∧
    man32 (qhalf fix a) = fixNan fix (bitField a 22 13) * 2 ^ 13 := by
  obtain ⟨hexp16, hman16⟩ := narrow16_fields_of_nan fix he hm
  obtain ⟨hsign, hexp, hman⟩ := widen32_fields_of_special hexp16
  exact ⟨hsign.trans (narrow16_fields fix a).1, hexp, hman16 ▸ hman⟩

/-- Settles O35: the fields of a quantized NaN, and the two examples evaluated. -/
theorem qhalfOfNaN : Obligations.QhalfOfNaN := by
  refine ⟨fun fix a hcls => ?_, by decide, by decide⟩
  obtain ⟨he, hm⟩ := (class32_eq_nan_iff a).1 hcls
  obtain ⟨hsign, hexp, hman⟩ := qhalf_fields_of_nan fix he hm
  have hpos := (fixNan_bounds fix (fragment_lt a)).1
  refine ⟨(class32_eq_nan_iff _).2 ⟨hexp, by omega⟩, hsign, hman, ?_⟩
  rw [bitField_eq_man32 _ (by omega) (by omega), hman, pow_zero, Nat.div_one]
  exact Nat.mul_mod_left _ _

/-- Real values from 65504 up to but not at 65520 narrow to the largest finite magnitude, under their sign (R63, C1). -/
theorem narrow16_of_below_boundary (fix : NanFix) {a : Word32} {x : ℚ} (hx : value32 a = .finite x) :
    (65504 ≤ x → x < 65520 → narrow16 fix a = pack16 0 0x7BFF) ∧
    (x ≤ -65504 → -65520 < x → narrow16 fix a = pack16 1 0x7BFF) := by
  obtain ⟨hpos, hneg⟩ := sign32_of_value hx
  obtain ⟨-, hmax, -⟩ := narrowRoundingCarry fix a x hx
  refine ⟨fun hlo hhi => ?_, fun hhi hlo => ?_⟩
  · have habs : |x| = x := abs_of_nonneg (by linarith)
    rw [hmax (by linarith) (by linarith), hpos (by linarith)]
  · have habs : |x| = -x := abs_of_nonpos (by linarith)
    rw [hmax (by linarith) (by linarith), hneg (by linarith)]

/-- Settles O36: the narrowed pattern of each clause, widened. -/
theorem qhalfOverflowBoundary : Obligations.QhalfOverflowBoundary := by
  intro fix a
  obtain ⟨hposInf, hnegInf⟩ := narrow16_of_value_infinite fix a
  refine ⟨fun h => ?_, fun h => ?_, fun x hx h => ?_, fun x hx h => ?_, fun x hx hlo hhi => ?_, fun x hx hhi hlo => ?_⟩ <;>
    rw [qhalf]
  · rw [hposInf h]; decide
  · rw [hnegInf h]; decide
  · rw [(narrow16_of_large fix hx).1 h]; decide
  · rw [(narrow16_of_large fix hx).2 h]; decide
  · rw [(narrow16_of_below_boundary fix hx).1 hlo hhi]; decide
  · rw [(narrow16_of_below_boundary fix hx).2 hhi hlo]; decide

end Sys2Proof.Machine
end
